-- ==== Sys2Proof/Word.lean ====
section
/-! DEFINITION. The word types of DLCA CORE: the byte every register, memory cell and operand is made of
(spec/10_state.md R110, R117), the 9-bit program counter (R109, R114) and the index of one of the eight
registers (R110). -/

namespace Sys2Proof

/-- One unsigned byte: a register, a memory cell, an opcode byte, an operand byte (R110, R117, R128). -/
abbrev Byte := BitVec 8

/-- The program counter: 9 bits, of which the rules reach 0 to 257 (R109, R114; the width is the spec's
decision D3, notes/assumptions/5.md). -/
abbrev PcWord := BitVec 9

/-- The tag input of the `alu` block: 3 bits, of which 0 to 5 name an operation (R198). -/
abbrev AluTag := BitVec 3

/-- Which of the eight general registers (R110). -/
abbrev RegIndex := Fin 8

end Sys2Proof
end

