-- ==== Sys2Proof/Config.lean ====
section
/-! DEFINITION. The parameters of the machine and the value each takes (spec/00_scope.md R105). Nothing of this
hardware is left as a free value: the spec settles every behaviour (notes/assumptions/15.md says so), so this
file holds no opaque constant. -/

namespace Sys2Proof.Config

/-- `NREGS`: eight general registers, indexed 0 to 7 (R105, R110). -/
def numRegs : Nat := 8

/-- `SP_INDEX`: register 7 is the stack pointer (R105, R113). -/
def spIndex : RegIndex := 7

/-- `SP_RESET`: 244 = 0xF4 (R105, R113). -/
def spReset : Byte := 0xF4

/-- Reset value of `x[0]` to `x[6]` (R105, R123; the spec's decision D5, notes/assumptions/3.md). -/
def regReset : Byte := 0x00

/-- `MEM_SIZE`: 256 cells, addresses 0 to 255 (R105, R117, R125). -/
def memSize : Nat := 256

/-- What a cell reads as that the host's loader placed nothing in and that nothing has written
(R123; the spec's decision D7, notes/assumptions/4.md). -/
def memFill : Byte := 0x00

/-- `PC_RESET` (R105, R114). -/
def pcReset : PcWord := 0

/-- `FL_RESET` (R105, R115; the spec's decision D6, notes/assumptions/3.md). -/
def flReset : Byte := 0x00

/-- Reset value of the Running flag (R105, R116; D8). -/
def runReset : Bool := true

end Sys2Proof.Config
end

