-- ==== Sys2Proof/Syntax.lean ====
section
/-! DEFINITION. The instructions of DLCA CORE as syntax: one constructor per row of spec/opcode_table.json
(spec/30_encoding.md R147), in the table's order. -/

namespace Sys2Proof

/-- The 16 instructions (R147). A register operand is the WHOLE operand byte, 0 to 255, not an index already
cut to 0 to 7: R145 checks it only when the instruction reads or writes the register, so an instruction with an
operand byte above 7 is still decoded and still runs (JEQ and JNE may even complete). A byte the format does not
use (R144) is no part of the instruction. -/
inductive Instr where
  /-- LDI reg, imm8 (R169). -/
  | ldi (a imm : Byte)
  /-- PRN reg (R170). -/
  | prn (a : Byte)
  /-- HLT (R171). -/
  | hlt
  /-- ADD regA, regB (R175). -/
  | add (a b : Byte)
  /-- MUL regA, regB (R176). -/
  | mul (a b : Byte)
  /-- AND regA, regB (R177). -/
  | and (a b : Byte)
  /-- OR regA, regB (R178). -/
  | or (a b : Byte)
  /-- XOR regA, regB (R179). -/
  | xor (a b : Byte)
  /-- PUSH reg (R184). -/
  | push (a : Byte)
  /-- POP reg (R185). -/
  | pop (a : Byte)
  /-- CALL reg (R188). -/
  | call (a : Byte)
  /-- RET (R189). -/
  | ret
  /-- CMP regA, regB (R180). -/
  | cmp (a b : Byte)
  /-- JMP reg (R190). -/
  | jmp (a : Byte)
  /-- JEQ reg (R191). -/
  | jeq (a : Byte)
  /-- JNE reg (R192). -/
  | jne (a : Byte)
  deriving DecidableEq, Repr

end Sys2Proof
end

