-- ==== Sys2Proof/WellFormed.lean ====
section
/-! DEFINITION. Well-formedness of an instruction: every register operand names a register, that is, is "valid
0..7" (the field notes of spec/opcode_table.json; spec/30_encoding.md R145). An ill-formed instruction still has an encoding and a
meaning (most of them raise `RegIndexOutOfRange`), so neither the decoder nor the machine asks for this. -/

namespace Sys2Proof

/-- The operand byte names one of the eight registers (R145). -/
def regOperandOk (a : Byte) : Bool := decide (a.toNat < Config.numRegs)

/-- Every register operand of the instruction is 0 to 7. LDI's immediate is any byte (R146). -/
def Instr.wellFormed : Instr → Bool
  | .ldi a _ => regOperandOk a
  | .prn a => regOperandOk a
  | .hlt => true
  | .add a b => regOperandOk a && regOperandOk b
  | .mul a b => regOperandOk a && regOperandOk b
  | .and a b => regOperandOk a && regOperandOk b
  | .or a b => regOperandOk a && regOperandOk b
  | .xor a b => regOperandOk a && regOperandOk b
  | .push a => regOperandOk a
  | .pop a => regOperandOk a
  | .call a => regOperandOk a
  | .ret => true
  | .cmp a b => regOperandOk a && regOperandOk b
  | .jmp a => regOperandOk a
  | .jeq a => regOperandOk a
  | .jne a => regOperandOk a

end Sys2Proof
end

