-- ==== Sys2Proof/Decode.lean ====
section
/-! DEFINITION. The decoder and the encoder (spec/30_encoding.md): the 16 opcode bytes (R147), the two fields of
an opcode byte (R142, R143), decoding by exact match of all eight bits (R148), and the bytes of an instruction
(R141). -/

namespace Sys2Proof

/-! ## The opcode bytes (R147) -/

/-- LDI 10000010. -/
def Opcode.ldi : Byte := 0b10000010
/-- PRN 01000111. -/
def Opcode.prn : Byte := 0b01000111
/-- HLT 00000001. -/
def Opcode.hlt : Byte := 0b00000001
/-- ADD 10100000. -/
def Opcode.add : Byte := 0b10100000
/-- MUL 10100010. -/
def Opcode.mul : Byte := 0b10100010
/-- AND 10101000. -/
def Opcode.and : Byte := 0b10101000
/-- OR 10101010. -/
def Opcode.or : Byte := 0b10101010
/-- XOR 10101011. -/
def Opcode.xor : Byte := 0b10101011
/-- PUSH 01000101. -/
def Opcode.push : Byte := 0b01000101
/-- POP 01000110. -/
def Opcode.pop : Byte := 0b01000110
/-- CALL 01010000. -/
def Opcode.call : Byte := 0b01010000
/-- RET 00010001. -/
def Opcode.ret : Byte := 0b00010001
/-- CMP 10100111. -/
def Opcode.cmp : Byte := 0b10100111
/-- JMP 01010100. -/
def Opcode.jmp : Byte := 0b01010100
/-- JEQ 01010101. -/
def Opcode.jeq : Byte := 0b01010101
/-- JNE 01010110. -/
def Opcode.jne : Byte := 0b01010110

/-- The keys of the Dispatch Table (R147), in the table's order. -/
def knownOpcodes : List Byte :=
  [Opcode.ldi, Opcode.prn, Opcode.hlt, Opcode.add, Opcode.mul, Opcode.and, Opcode.or, Opcode.xor,
   Opcode.push, Opcode.pop, Opcode.call, Opcode.ret, Opcode.cmp, Opcode.jmp, Opcode.jeq, Opcode.jne]

/-! ## The fields of an opcode byte, known or not (R142) -/

/-- `len(op) = op[7:6] + 1`: 1, 2 or 3 for the 16 opcodes, 4 for an unknown opcode 0xC0 to 0xFF
(R143; spec/90_conflicts.md C1). -/
def opLen (op : Byte) : Nat := (op >>> 6).toNat + 1

/-- Bit 4, `C`: 1 says the instruction sets PC itself and the loop does not advance it (R142, R162). -/
def opSetsPc (op : Byte) : Bool := op.getLsbD 4

/-! ## Decoding -/

/-- Why bytes are no instruction. -/
inductive Reject where
  /-- The opcode byte is not a key of the Dispatch Table (R149). The machine reports it and goes on (R161). -/
  | unknownOpcode (op : Byte)
  /-- A byte string ends before the instruction does. Only `decodeBytes` answers this: the machine's fetch
  always has three bytes (R157). -/
  | truncated
  deriving DecidableEq, Repr

/-- The instruction that the opcode byte `op` and the operand bytes `a`, `b` make (R144, R147). All eight bits
of the opcode take part and no operand bit does (R148); an operand byte the format does not use is dropped. -/
def decode (op a b : Byte) : Except Reject Instr :=
  if op = Opcode.ldi then .ok (.ldi a b)
  else if op = Opcode.prn then .ok (.prn a)
  else if op = Opcode.hlt then .ok .hlt
  else if op = Opcode.add then .ok (.add a b)
  else if op = Opcode.mul then .ok (.mul a b)
  else if op = Opcode.and then .ok (.and a b)
  else if op = Opcode.or then .ok (.or a b)
  else if op = Opcode.xor then .ok (.xor a b)
  else if op = Opcode.push then .ok (.push a)
  else if op = Opcode.pop then .ok (.pop a)
  else if op = Opcode.call then .ok (.call a)
  else if op = Opcode.ret then .ok .ret
  else if op = Opcode.cmp then .ok (.cmp a b)
  else if op = Opcode.jmp then .ok (.jmp a)
  else if op = Opcode.jeq then .ok (.jeq a)
  else if op = Opcode.jne then .ok (.jne a)
  else .error (.unknownOpcode op)

/-- The first instruction of a byte string, and the bytes after it (R141, R152). -/
def decodeBytes : List Byte → Except Reject (Instr × List Byte)
  | [] => .error .truncated
  | op :: rest =>
    match decode op (rest.getD 0 0) (rest.getD 1 0) with
    | .error r => .error r
    | .ok i => if rest.length + 1 < opLen op then .error .truncated else .ok (i, rest.drop (opLen op - 1))

/-! ## Encoding -/

/-- The instruction's opcode byte (R147). -/
def opcodeOf : Instr → Byte
  | .ldi _ _ => Opcode.ldi
  | .prn _ => Opcode.prn
  | .hlt => Opcode.hlt
  | .add _ _ => Opcode.add
  | .mul _ _ => Opcode.mul
  | .and _ _ => Opcode.and
  | .or _ _ => Opcode.or
  | .xor _ _ => Opcode.xor
  | .push _ => Opcode.push
  | .pop _ => Opcode.pop
  | .call _ => Opcode.call
  | .ret => Opcode.ret
  | .cmp _ _ => Opcode.cmp
  | .jmp _ => Opcode.jmp
  | .jeq _ => Opcode.jeq
  | .jne _ => Opcode.jne

/-- The operand bytes in ascending address order (R129, R141). -/
def operandBytes : Instr → List Byte
  | .ldi a imm => [a, imm]
  | .prn a => [a]
  | .hlt => []
  | .add a b => [a, b]
  | .mul a b => [a, b]
  | .and a b => [a, b]
  | .or a b => [a, b]
  | .xor a b => [a, b]
  | .push a => [a]
  | .pop a => [a]
  | .call a => [a]
  | .ret => []
  | .cmp a b => [a, b]
  | .jmp a => [a]
  | .jeq a => [a]
  | .jne a => [a]

/-- The bytes of an instruction, the opcode byte at the lowest address (R129, R141). -/
def encode (i : Instr) : List Byte := opcodeOf i :: operandBytes i

/-! ## The host's reading of a table word -/

/-- Byte `k` of a number whose bit 0 is the least significant bit of the first byte. -/
def byteOfWord (w k : Nat) : Byte := BitVec.ofNat 8 (w / 2 ^ (8 * k))

/-- The three bytes a fetch takes from a number, the first at the lowest address (R129). -/
def wordBytes (w : Nat) : List Byte := [byteOfWord w 0, byteOfWord w 1, byteOfWord w 2]

/-- The instruction the decoder reads from the first `nbits` bits of `w`, every later bit being 0; `none` where
the opcode byte is unknown. The first byte stands at the lowest address (R129). -/
def decodeTableWord (nbits w : Nat) : Option Instr :=
  match decode (byteOfWord (w % 2 ^ nbits) 0) (byteOfWord (w % 2 ^ nbits) 1) (byteOfWord (w % 2 ^ nbits) 2) with
  | .ok i => some i
  | .error _ => none

/-! ## Assembly text (R108, R153) -/

/-- The mnemonic, as R147 spells it. -/
def Instr.mnemonic : Instr → String
  | .ldi _ _ => "LDI"
  | .prn _ => "PRN"
  | .hlt => "HLT"
  | .add _ _ => "ADD"
  | .mul _ _ => "MUL"
  | .and _ _ => "AND"
  | .or _ _ => "OR"
  | .xor _ _ => "XOR"
  | .push _ => "PUSH"
  | .pop _ => "POP"
  | .call _ => "CALL"
  | .ret => "RET"
  | .cmp _ _ => "CMP"
  | .jmp _ => "JMP"
  | .jeq _ => "JEQ"
  | .jne _ => "JNE"

/-- A register operand in assembly: `R` and the index. -/
def regName (a : Byte) : String := "R" ++ toString a.toNat

/-- The operands in assembly, in memory order, an immediate in decimal (R108, R153). -/
def Instr.operandText : Instr → List String
  | .ldi a imm => [regName a, toString imm.toNat]
  | .prn a => [regName a]
  | .hlt => []
  | .add a b => [regName a, regName b]
  | .mul a b => [regName a, regName b]
  | .and a b => [regName a, regName b]
  | .or a b => [regName a, regName b]
  | .xor a b => [regName a, regName b]
  | .push a => [regName a]
  | .pop a => [regName a]
  | .call a => [regName a]
  | .ret => []
  | .cmp a b => [regName a, regName b]
  | .jmp a => [regName a]
  | .jeq a => [regName a]
  | .jne a => [regName a]

/-- One line of assembly: mnemonic, space, operands separated by commas (R153). -/
def Instr.assembly (i : Instr) : String :=
  if i.operandText.isEmpty then i.mnemonic else i.mnemonic ++ " " ++ String.intercalate "," i.operandText

end Sys2Proof
end

