-- ==== Sys2Proof/Machine/State.lean ====
section
/-! DEFINITION. The state of the machine (spec/10_state.md R109, the spec's complete list), the fault records
(R119, spec/60_exceptions.md R206) and the state after reset (R123). -/

namespace Sys2Proof.Machine

/-- A fatal fault: the record `(kind, info)` that `FAULT` holds (R119, R206). Each is entered as a NEXT state whose
`fault` field holds it (R212, notes/assumptions/1.md); no step of this machine answers `Host.Outcome.fault`.
Taking a fault is safe against a machine that goes on where this one stops. -/
inductive Fault where
  /-- `UnsupportedAluOp`: raised by the `alu` block for tag 6 or 7 (R181, R208). No program reaches it. Safe. -/
  | unsupportedAluOp (tag : AluTag)
  /-- `MemAddressOutOfRange`: raised by the fetch at an address above 255 (R127, R158, R209). Safe. -/
  | memAddressOutOfRange (addr : Nat)
  /-- `RegIndexOutOfRange`: raised by an instruction that accesses a register through an operand byte above 7
  (R145, R210). Safe. -/
  | regIndexOutOfRange (index : Byte)
  deriving DecidableEq, Repr

/-- Why a meaning would be refused. No instruction of this machine is. -/
inductive Refusal where
  /-- Raised by `exec` for an instruction that has no meaning yet: none is left. Safe. -/
  | notModelled (mnemonic : String)
  deriving DecidableEq, Repr

/-- What the machine emits (R120). -/
inductive Event where
  /-- `Print(v)`: the value a PRN emitted (R170). -/
  | print (v : Byte)
  /-- `Invalid(op, at)`: the report of an unknown opcode and the PC it was fetched from (R161). -/
  | invalid (op : Byte) (pc : PcWord)
  deriving DecidableEq, Repr

/-- Memory as a list of cells in canonical form (`Memory.wf`): addresses strictly rising and below 256, no cell
that holds what an unlisted address reads as (`Config.memFill`). -/
abbrev Memory := List Host.Cell

/-- The complete state (R109). -/
structure State where
  /-- `x[0]` .. `x[7]`; `x[7]` is the stack pointer's one cell (R110, R113). -/
  regs : Vector Byte 8
  /-- `PC`: between steps the address of the next opcode byte (R114). -/
  pc : PcWord
  /-- `FL`, pattern `00000LGE` (R115). -/
  fl : Byte
  /-- `RUN`, the Running flag (R116). -/
  run : Bool
  /-- `mem[0]` .. `mem[255]` (R117). -/
  mem : Memory
  /-- `FAULT`: none, or the record of the fault that stopped the machine (R119). -/
  fault : Option Fault
  /-- `OUT`: every event so far, the oldest first (R120). -/
  out : List Event
  deriving DecidableEq, Repr

/-- The three bytes a step has fetched: `ir`, `op_a`, `op_b` (R121, R195). They do not survive the step, so they are
no part of `State` (notes/assumptions/14.md). -/
structure Latches where
  ir : Byte
  opA : Byte
  opB : Byte
  deriving DecidableEq, Repr

/-- The registers after reset: `x[7] = 0xF4`, the others 0 (R123; notes/assumptions/3.md). -/
def regsReset : Vector Byte 8 :=
  (Vector.replicate 8 Config.regReset).set 7 Config.spReset

/-- The state after reset with memory holding the image `MEM_INIT = init` (R123, R221). -/
def State.resetWith (init : Memory) : State where
  regs := regsReset
  pc := Config.pcReset
  fl := Config.flReset
  run := Config.runReset
  mem := init
  fault := none
  out := []

/-- The machine right after reset, with nothing placed in memory by the host (R123; notes/assumptions/4.md). -/
def State.reset : State := State.resetWith []

end Sys2Proof.Machine
end

