-- ==== Sys2Proof/Machine/Ops.lean ====
section
/-! DEFINITION. The named operations over memory, registers and the other state: the pseudocode primitives of
spec/00_scope.md R107, the one fault entry (spec/60_exceptions.md R212), the loop's PC rule
(spec/40_execution_cycle.md R162) and the fetch (R156 to R158). -/

namespace Sys2Proof.Machine

/-! ## Memory (spec/20_memory.md) -/

/-- `mem[a]`: the listed byte, or the fill where nothing is listed (R126). -/
def Memory.read : Memory → Nat → Byte
  | [], _ => Config.memFill
  | (k, v) :: rest, a => if k = a then v else Memory.read rest a

/-- The cell `(a, v)` before `rest`, left out where an unlisted address reads as `v` anyway. -/
def Memory.put (a : Nat) (v : Byte) (rest : Memory) : Memory :=
  if v = Config.memFill then rest else (a, v) :: rest

/-- `mem[a] <- v`, keeping the canonical form (R126). -/
def Memory.write : Memory → Nat → Byte → Memory
  | [], a, v => Memory.put a v []
  | (k, w) :: rest, a, v =>
    if a < k then Memory.put a v ((k, w) :: rest)
    else if a = k then Memory.put a v rest
    else (k, w) :: Memory.write rest a v

/-- The cells have strictly rising addresses from `lo` on, below 256, and none holds the fill. -/
def Memory.wfFrom (lo : Nat) : Memory → Bool
  | [] => true
  | (k, v) :: rest =>
    decide (lo ≤ k) && decide (k < Config.memSize) && decide (v ≠ Config.memFill) && Memory.wfFrom (k + 1) rest

/-- The canonical form of memory: equal memories are equal lists. -/
def Memory.wf (m : Memory) : Bool := Memory.wfFrom 0 m

/-- The bytes `bs` placed at `a`, `a + 1`, ... (R129, R222). -/
def Memory.place : Memory → Nat → List Byte → Memory
  | m, _, [] => m
  | m, a, v :: rest => Memory.place (Memory.write m a v) (a + 1) rest

/-! ## One update per field of the state -/

/-- `x[r]` (R107, R110). -/
def State.reg (s : State) (r : RegIndex) : Byte := s.regs[r]

/-- `x[r] <- v` (R107, R110). No register is hardwired (R110). -/
def State.setReg (s : State) (r : RegIndex) (v : Byte) : State := { s with regs := s.regs.set r v }

/-- `SP`: another name for `x[7]`, the same cell (R113). -/
def State.sp (s : State) : Byte := s.reg Config.spIndex

/-- `SP <- v`: a write of `x[7]` (R113). -/
def State.setSp (s : State) (v : Byte) : State := s.setReg Config.spIndex v

/-- `pc <- target` (R107). -/
def State.setPc (s : State) (target : PcWord) : State := { s with pc := target }

/-- `FL <- v` (R107). -/
def State.setFl (s : State) (v : Byte) : State := { s with fl := v }

/-- `RUN <- false` (R116, R171). -/
def State.halt (s : State) : State := { s with run := false }

/-- `mem[a] <- v` through the data port, whose address is a byte and so always in range (R127, R202). -/
def State.store (s : State) (a v : Byte) : State := { s with mem := s.mem.write a.toNat v }

/-- `mem[a]` through the data port (R127, R202). -/
def State.load (s : State) (a : Byte) : Byte := s.mem.read a.toNat

/-- `emit e`: the event is appended to `OUT` (R107, R120). -/
def State.emit (s : State) (e : Event) : State := { s with out := s.out ++ [e] }

/-! ## Taking a fault -/

/-- FAULT ENTRY, the one way a fatal fault is taken (R107 `raise`, R212): the step is abandoned, so this is applied
to the state as the step FOUND it; `FAULT <- (kind, info)`; every register, FL, RUN, PC, every memory cell and OUT
stay as they are. There is no return from a fault (R216): only reset clears `FAULT`. -/
def State.takeFault (s : State) (f : Fault) : State := { s with fault := some f }

/-- The machine takes no step: it has halted or faulted (R155). -/
def State.stopped (s : State) : Bool := !s.run || s.fault.isSome

/-! ## Arithmetic on bytes and on PC -/

/-- A value reduced modulo 256 before it is stored in a register (R112). -/
def wrap8 (n : Nat) : Byte := BitVec.ofNat 8 n

/-- `(SP - 1) mod 256` (R112, R201). -/
def spDec (v : Byte) : Byte := wrap8 (v.toNat + 255)

/-- `(SP + 1) mod 256` (R112, R201). -/
def spInc (v : Byte) : Byte := wrap8 (v.toNat + 1)

/-- A transfer target: a byte as a value of PC, high bit zero (R186). -/
def pcOfByte (v : Byte) : PcWord := v.zeroExtend 9

/-- `PC + n` (R162). From any PC of a completed step (at most 253) the sum does not wrap (R122c). -/
def pcPlus (pc : PcWord) (n : Nat) : PcWord := pc + BitVec.ofNat 9 n

/-- The return address CALL stores: `(PC + 2)[7:0]`, at most 255 in every step (R188, R202). -/
def returnAddress (pc : PcWord) : Byte := (pcPlus pc 2).truncate 8

/-- Loop step 5 (R162): if bit 4 of the raw opcode byte is 0, `pc <- PC + len(op)`; if it is 1 the loop leaves PC. -/
def State.loopAdvance (s : State) (op : Byte) : State :=
  if opSetsPc op then s else s.setPc (pcPlus s.pc (opLen op))

/-- The step of an unknown opcode (R161, R166, R207): one report, and the loop's PC rule on the raw byte. -/
def State.reportInvalid (s : State) (op : Byte) : State := (s.emit (.invalid op s.pc)).loopAdvance op

/-! ## Fetch -/

/-- `MemRead(addr, 1)`: the byte, or `MemAddressOutOfRange(addr)` above 255; the address is never reduced (R107,
R127). -/
def memRead (m : Memory) (addr : Nat) : Except Fault Byte :=
  if addr < Config.memSize then .ok (m.read addr) else .error (.memAddressOutOfRange addr)

/-- Loop steps 1 and 3 (R156, R157): the bytes at `PC`, `PC + 1`, `PC + 2`, read in that order whatever the opcode;
the first address above 255 is the fault (R158). -/
def fetch (s : State) : Except Fault Latches :=
  match memRead s.mem s.pc.toNat with
  | .error f => .error f
  | .ok op =>
    match memRead s.mem (s.pc.toNat + 1) with
    | .error f => .error f
    | .ok a =>
      match memRead s.mem (s.pc.toNat + 2) with
      | .error f => .error f
      | .ok b => .ok ⟨op, a, b⟩

/-- The three bytes of the number `w` cut to `nbits` bits, stored where the next fetch reads, if that fetch is in
range (PC at most 253); no store can make a step fetch above it (R158). -/
def State.placeFetchWord (s : State) (nbits w : Nat) : State :=
  if s.pc.toNat ≤ 253 then
    { s with mem := s.mem.place s.pc.toNat (wordBytes (w % 2 ^ nbits)) }
  else s

end Sys2Proof.Machine
end

