-- ==== Sys2Proof/Machine/Flags.lean ====
section
/-! DEFINITION. The flags register FL (spec/10_state.md R115): its three patterns, the comparison that CMP writes
(spec/42_alu.md R180) and the one bit that instructions read. -/

namespace Sys2Proof.Machine

/-- Bit 0 alone: Equal. -/
def flEqual : Byte := 0b00000001
/-- Bit 1 alone: Greater. -/
def flGreater : Byte := 0b00000010
/-- Bit 2 alone: Less. -/
def flLess : Byte := 0b00000100

/-- The byte CMP writes to FL, all eight bits: Equal, Greater or Less as `va` compares with `vb`, unsigned (R180;
whose "greater" it is: the spec's decision D14, notes/assumptions/10.md). -/
def compareFlags (va vb : Byte) : Byte :=
  if va = vb then flEqual else if vb.toNat < va.toNat then flGreater else flLess

/-- E, `FL[0]`, the only flag an instruction reads (R115). -/
def State.flagE (s : State) : Bool := s.fl.getLsbD 0

end Sys2Proof.Machine
end

