-- ==== Sys2Proof/Machine/Operands.lean ====
section
/-! DEFINITION. The operand forms: a register named by a whole operand byte (spec/30_encoding.md R145,
spec/60_exceptions.md R210), two of them (spec/42_alu.md R172), and the stack byte (spec/43_stack.md R182). LDI's
immediate (R146) is the operand byte itself. -/

namespace Sys2Proof.Machine

/-- The register an operand byte names: 0 to 7, and none above; the byte is not cut to three bits (R145). -/
def regIndex (a : Byte) : Option RegIndex :=
  if h : a.toNat < Config.numRegs then some ⟨a.toNat, h⟩ else none

/-- An access to the register operand `a`: `k` goes on with the register, or the instruction raises
`RegIndexOutOfRange(a)`. `s` is the state the step found, so that nothing of the instruction has taken effect when
the fault is taken (R210, R212). -/
def withReg (a : Byte) (s : State) (k : RegIndex → Host.Outcome State Fault Refusal) :
    Host.Outcome State Fault Refusal :=
  match regIndex a with
  | some r => k r
  | none => .next (s.takeFault (.regIndexOutOfRange a))

/-- Accesses to the register operands `a`, then `b` (R172): `a` is reported when both are out of range. -/
def withRegs (a b : Byte) (s : State) (k : RegIndex → RegIndex → Host.Outcome State Fault Refusal) :
    Host.Outcome State Fault Refusal :=
  withReg a s fun ra => withReg b s fun rb => k ra rb

/-- The stack address a push writes: SP after the decrement (R182, R201). -/
def State.pushAddr (s : State) : Byte := spDec s.sp

/-- SP decremented (R182, R201 DEC). -/
def State.decSp (s : State) : State := s.setSp (spDec s.sp)

/-- SP incremented (R182, R201 INC). -/
def State.incSp (s : State) : State := s.setSp (spInc s.sp)

/-- The byte on top of the stack, read at SP before the increment (R182, R201). -/
def State.stackTop (s : State) : Byte := s.load s.sp

end Sys2Proof.Machine
end

