-- ==== Sys2Proof/Machine/Alu.lean ====
section
/-! DEFINITION. The ALU and its six instructions (spec/42_alu.md). -/

namespace Sys2Proof.Machine

/-! ## The `alu` block (R172, R198) -/

/-- Tag 0 (R198). -/
def aluAdd : AluTag := 0
/-- Tag 1 (R198). -/
def aluMul : AluTag := 1
/-- Tag 2 (R198). -/
def aluAnd : AluTag := 2
/-- Tag 3 (R198). -/
def aluOr : AluTag := 3
/-- Tag 4 (R198). -/
def aluXor : AluTag := 4
/-- Tag 5 (R198). -/
def aluCmp : AluTag := 5

/-- What the ALU yields: a result for the first register, a new FL, or the "unsupported operation" condition. -/
inductive AluOut where
  | result (v : Byte)
  | flags (fl : Byte)
  | unsupported
  deriving DecidableEq, Repr

/-- The ALU as a pure function of the tag and the two values (R172, R198): the exact integer result kept modulo 256
(R173), the bitwise results, the comparison (R180), and no result for a tag outside the six (R181). -/
def alu (tag : AluTag) (va vb : Byte) : AluOut :=
  if tag = aluAdd then .result (wrap8 (va.toNat + vb.toNat))
  else if tag = aluMul then .result (wrap8 (va.toNat * vb.toNat))
  else if tag = aluAnd then .result (va &&& vb)
  else if tag = aluOr then .result (va ||| vb)
  else if tag = aluXor then .result (va ^^^ vb)
  else if tag = aluCmp then .flags (compareFlags va vb)
  else .unsupported

/-- What becomes of the ALU's output (R172): a result goes back to register `ra`, a comparison to FL, and the loop's PC
rule of the opcode byte `op` follows; the unsupported condition is the fatal fault (R181, R208). -/
def aluWriteBack (op : Byte) (tag : AluTag) (ra : RegIndex) (s : State) : AluOut → Host.Outcome State Fault Refusal
  | .result v => .next ((s.setReg ra v).loopAdvance op)
  | .flags fl => .next ((s.setFl fl).loopAdvance op)
  | .unsupported => .next (s.takeFault (.unsupportedAluOp tag))

/-- An ALU instruction with opcode byte `op` (R172): both registers are read, `a` first, before anything is written. -/
def execAlu (op : Byte) (tag : AluTag) (a b : Byte) (s : State) : Host.Outcome State Fault Refusal :=
  withRegs a b s fun ra rb => aluWriteBack op tag ra s (alu tag (s.reg ra) (s.reg rb))

/-! ## The instructions -/

/-- ADD (R175): `x[a] <- (x[a] + x[b]) mod 256`. -/
def execAdd (a b : Byte) (s : State) : Host.Outcome State Fault Refusal := execAlu Opcode.add aluAdd a b s

/-- MUL (R176): `x[a] <- (x[a] * x[b]) mod 256`. -/
def execMul (a b : Byte) (s : State) : Host.Outcome State Fault Refusal := execAlu Opcode.mul aluMul a b s

/-- AND (R177): `x[a] <- x[a] & x[b]`. -/
def execAnd (a b : Byte) (s : State) : Host.Outcome State Fault Refusal := execAlu Opcode.and aluAnd a b s

/-- OR (R178): `x[a] <- x[a] | x[b]`. -/
def execOr (a b : Byte) (s : State) : Host.Outcome State Fault Refusal := execAlu Opcode.or aluOr a b s

/-- XOR (R179): `x[a] <- x[a] ^ x[b]`. -/
def execXor (a b : Byte) (s : State) : Host.Outcome State Fault Refusal := execAlu Opcode.xor aluXor a b s

/-- CMP (R180): FL becomes the pattern of the comparison; no register is written. -/
def execCmp (a b : Byte) (s : State) : Host.Outcome State Fault Refusal := execAlu Opcode.cmp aluCmp a b s

end Sys2Proof.Machine
end

