-- ==== Sys2Proof/Machine/Control.lean ====
section
/-! DEFINITION. CALL, RET, JMP, JEQ and JNE (spec/44_control_transfer.md). Bit 4 of each opcode is set: the handler
writes PC on every path and the loop does not advance it (R162, R225). -/

namespace Sys2Proof.Machine

/-- CALL (R188): decrement SP, store the return address `PC + 2` at SP, jump to `x[a]`. `x[a]` is read after the
decrement, so CALL R7 jumps to the decremented pointer (the spec's decision D15, notes/assumptions/9.md). -/
def execCall (a : Byte) (s : State) : Host.Outcome State Fault Refusal :=
  withReg a s fun r =>
    .next ((s.decSp.store s.pushAddr (returnAddress s.pc)).setPc (pcOfByte (s.decSp.reg r)))

/-- RET (R189): jump to the byte at SP, then increment SP. -/
def execRet (s : State) : Host.Outcome State Fault Refusal :=
  .next ((s.setPc (pcOfByte s.stackTop)).incSp)

/-- JMP (R190): jump to `x[a]`. -/
def execJmp (a : Byte) (s : State) : Host.Outcome State Fault Refusal :=
  withReg a s fun r => .next (s.setPc (pcOfByte (s.reg r)))

/-- The conditional branch shared by JEQ and JNE: taken, it is a jump to `x[a]`; not taken, PC moves by the
instruction length and the operand is neither accessed nor checked (R191, R192; the spec's decision D2,
notes/assumptions/7.md). -/
def branchIf (taken : Bool) (op a : Byte) (s : State) : Host.Outcome State Fault Refusal :=
  if taken then withReg a s fun r => .next (s.setPc (pcOfByte (s.reg r)))
  else .next (s.setPc (pcPlus s.pc (opLen op)))

/-- JEQ (R191): taken when `FL[0]` is 1. -/
def execJeq (a : Byte) (s : State) : Host.Outcome State Fault Refusal := branchIf s.flagE Opcode.jeq a s

/-- JNE (R192): taken when `FL[0]` is 0. -/
def execJne (a : Byte) (s : State) : Host.Outcome State Fault Refusal := branchIf (!s.flagE) Opcode.jne a s

end Sys2Proof.Machine
end

