-- ==== Sys2Proof/Machine/LoadPrintHalt.lean ====
section
/-! DEFINITION. LDI, PRN and HLT (spec/41_load_print_halt.md). Each meaning is the handler and the loop's PC rule
after it (spec/40_execution_cycle.md R162, R164; notes/assumptions/18.md). -/

namespace Sys2Proof.Machine

/-- LDI (R169): `x[a] <- imm8`. -/
def execLdi (a imm : Byte) (s : State) : Host.Outcome State Fault Refusal :=
  withReg a s fun r => .next ((s.setReg r imm).loopAdvance Opcode.ldi)

/-- PRN (R170): `emit Print(x[a])`. -/
def execPrn (a : Byte) (s : State) : Host.Outcome State Fault Refusal :=
  withReg a s fun r => .next ((s.emit (.print (s.reg r))).loopAdvance Opcode.prn)

/-- HLT (R171): `RUN <- false`; the loop still advances PC (R165). -/
def execHlt (s : State) : Host.Outcome State Fault Refusal :=
  .next (s.halt.loopAdvance Opcode.hlt)

end Sys2Proof.Machine
end

