-- ==== Sys2Proof/Machine/Stack.lean ====
section
/-! DEFINITION. PUSH and POP (spec/43_stack.md). -/

namespace Sys2Proof.Machine

/-- PUSH (R184): decrement SP, then store `x[a]` at SP. `x[a]` is read after the decrement, so PUSH R7 stores the
decremented pointer (the spec's decision D15, notes/assumptions/9.md). -/
def execPush (a : Byte) (s : State) : Host.Outcome State Fault Refusal :=
  withReg a s fun r => .next ((s.decSp.store s.pushAddr (s.decSp.reg r)).loopAdvance Opcode.push)

/-- POP (R185): load `x[a]` from SP, then increment SP. POP R7 increments the loaded value (the spec's decision
D15, notes/assumptions/9.md). -/
def execPop (a : Byte) (s : State) : Host.Outcome State Fault Refusal :=
  withReg a s fun r => .next ((s.setReg r s.stackTop).incSp.loopAdvance Opcode.pop)

end Sys2Proof.Machine
end

