-- ==== Sys2Proof/Machine/Step.lean ====
section
/-! DEFINITION. One step of the machine (spec/40_execution_cycle.md R155, R163). -/

namespace Sys2Proof.Machine

/-- One pass of the Execution Loop (R163). A stopped machine takes no step and keeps its state, which `step` says by
answering that state (R155, R205; notes/assumptions/2.md). A fetch out of range is the fault, before anything is
decoded (R158, R213). A known opcode runs its instruction, an unknown one is reported and skipped (R160, R161). -/
def step (s : State) : Host.Outcome State Fault Refusal :=
  if s.stopped then .next s
  else
    match fetch s with
    | .error f => .next (s.takeFault f)
    | .ok l =>
      match decode l.ir l.opA l.opB with
      | .ok i => exec i s
      | .error _ => .next (s.reportInvalid l.ir)

/-- The state with the instruction of bits `w` (cut to `nbits`, zeros above) stored at `PC`, `PC + 1`, `PC + 2`,
where the next step fetches (R156, R157). It stands for the host's load of a program (R222;
notes/assumptions/16.md). -/
def State.withFetchWord (s : State) (nbits w : Nat) : State := s.placeFetchWord nbits w

end Sys2Proof.Machine
end

