-- ==== Sys2Proof/Machine/Blocks.lean ====
section
/-! DEFINITION. The eight blocks as hardware and one step as their composition (spec/48_block_interfaces.md R193 to
R205). This is a second, independent description of the step: the control table of R204 drives pure functions. The
instruction meanings stand in the family files; where the two could be read differently those win, and that they
agree on every state is an obligation of this model (R205). Names and select codes are the spec's decision D13
(notes/assumptions/20.md). -/

namespace Sys2Proof.Machine

/-! ## Control signals (R204) -/

/-- Enable of read port A: off, on, or on when the branch is taken. -/
inductive PortSel where
  | off | on | taken
  deriving DecidableEq, Repr

/-- Source of the register file's write port. -/
inductive WriteSel where
  | off | opB | res | rdata
  deriving DecidableEq, Repr

/-- `sp_op` (R201). -/
inductive SpOp where
  | none | dec | inc
  deriving DecidableEq, Repr

/-- The data access and its write source (R202). -/
inductive MemSel where
  | none | writeRa | writeReturn | read
  deriving DecidableEq, Repr

/-- `pc_sel` (R199). -/
inductive PcSel where
  | seq | reg | mem | eq | ne | hold
  deriving DecidableEq, Repr

/-- What the decoder drives (R196, R204). `invalid` is `not known`. -/
structure Control where
  known : Bool
  len : BitVec 3
  setsPc : Bool
  ra : PortSel
  rb : Bool
  w : WriteSel
  aluOp : Option AluTag
  flWe : Bool
  sp : SpOp
  mem : MemSel
  pcSel : PcSel
  print : Bool
  halt : Bool
  deriving DecidableEq, Repr

/-- Every control signal inactive; `len` and `sets_pc` from the raw byte; PC moves on, or is held when bit 4 is set
(R196, R204: the two rows of an unknown opcode). -/
def controlUnknown (ir : Byte) : Control where
  known := false
  len := (ir >>> 6).truncate 3 + 1
  setsPc := ir.getLsbD 4
  ra := .off
  rb := false
  w := .off
  aluOp := Option.none
  flWe := false
  sp := .none
  mem := .none
  pcSel := if ir.getLsbD 4 then .hold else .seq
  print := false
  halt := false

/-- The row shared by ADD, MUL, AND, OR and XOR (R204). -/
def controlAlu (ir : Byte) (tag : AluTag) : Control :=
  { controlUnknown ir with known := true, ra := .on, rb := true, w := .res, aluOp := some tag, pcSel := .seq }

/-- `decoder`: the control table (R196, R204). -/
def decoder (ir : Byte) : Control :=
  if ir = 0x82 then { controlUnknown ir with known := true, w := .opB, pcSel := .seq }
  else if ir = 0x47 then { controlUnknown ir with known := true, ra := .on, pcSel := .seq, print := true }
  else if ir = 0x01 then { controlUnknown ir with known := true, pcSel := .seq, halt := true }
  else if ir = 0xA0 then controlAlu ir 0
  else if ir = 0xA2 then controlAlu ir 1
  else if ir = 0xA8 then controlAlu ir 2
  else if ir = 0xAA then controlAlu ir 3
  else if ir = 0xAB then controlAlu ir 4
  else if ir = 0xA7 then { controlAlu ir 5 with w := .off, flWe := true }
  else if ir = 0x45 then
    { controlUnknown ir with known := true, ra := .on, sp := .dec, mem := .writeRa, pcSel := .seq }
  else if ir = 0x46 then { controlUnknown ir with known := true, w := .rdata, sp := .inc, mem := .read, pcSel := .seq }
  else if ir = 0x50 then
    { controlUnknown ir with known := true, ra := .on, sp := .dec, mem := .writeReturn, pcSel := .reg }
  else if ir = 0x11 then { controlUnknown ir with known := true, sp := .inc, mem := .read, pcSel := .mem }
  else if ir = 0x54 then { controlUnknown ir with known := true, ra := .on, pcSel := .reg }
  else if ir = 0x55 then { controlUnknown ir with known := true, ra := .taken, pcSel := .eq }
  else if ir = 0x56 then { controlUnknown ir with known := true, ra := .taken, pcSel := .ne }
  else controlUnknown ir

/-! ## The other blocks -/

/-- `fetch_unit` and the fetch side of `memory_subsystem` (R195, R202): the three addresses, the first above 255 as
the fault, else the three bytes. -/
def fetchBlock (pc : PcWord) (m : Memory) : Except Fault Latches :=
  match [pc.toNat, pc.toNat + 1, pc.toNat + 2].find? (fun a => decide (255 < a)) with
  | some a => .error (.memAddressOutOfRange a)
  | Option.none => .ok ⟨m.read pc.toNat, m.read (pc.toNat + 1), m.read (pc.toNat + 2)⟩

/-- `pc_mux`, output `taken` (R199). -/
def pcTaken (sel : PcSel) (flE : Bool) : Bool :=
  match sel with
  | .seq => false
  | .reg => true
  | .mem => false
  | .eq => flE
  | .ne => !flE
  | .hold => false

/-- `pc_mux`, output `next_pc` (R199). -/
def pcNext (sel : PcSel) (pc : PcWord) (len : BitVec 3) (regTarget memTarget : Byte) (flE : Bool) : PcWord :=
  match sel with
  | .seq => pc + len.zeroExtend 9
  | .reg => regTarget.zeroExtend 9
  | .mem => memTarget.zeroExtend 9
  | .eq => if flE then regTarget.zeroExtend 9 else pc + len.zeroExtend 9
  | .ne => if flE then pc + len.zeroExtend 9 else regTarget.zeroExtend 9
  | .hold => pc

/-- `stack_pointer`, output `sp_next` (R201). DESIGN CHOICE (notes/assumptions/20.md): for NONE the spec gives no value; the
model shows `sp_cur`, and `commit` writes SP for DEC and INC only. -/
def spNext (op : SpOp) (cur : Byte) : Byte :=
  match op with
  | .none => cur
  | .dec => cur - 1
  | .inc => cur + 1

/-- `stack_pointer`, output `stack_addr` (R201). DESIGN CHOICE (notes/assumptions/20.md): for NONE the spec gives no value; the
model shows `sp_cur`, and no data access takes place. -/
def stackAddr (op : SpOp) (cur : Byte) : Byte :=
  match op with
  | .none => cur
  | .dec => cur - 1
  | .inc => cur

/-- `register_file`, outputs `idx_fault`, `idx_bad` (R197): the index of an enabled port above 7, port A before port B,
the write port last. -/
def idxFault (ra rb w : Bool) (opA opB : Byte) : Option Byte :=
  if ra && decide (7 < opA.toNat) then some opA
  else if rb && decide (7 < opB.toNat) then some opB
  else if w && decide (7 < opA.toNat) then some opA
  else Option.none

/-- `register_file`, a read port (R197). DESIGN CHOICE (notes/assumptions/20.md): a port that is not enabled, and an
enabled port whose index is above 7, show 0. Neither value is used: the latter step ends in the index fault first (R205). -/
def readPort (x : Vector Byte 8) (en : Bool) (idx : Byte) : Byte :=
  if h : en = true ∧ idx.toNat < 8 then x[idx.toNat]'h.2 else 0

/-- `register_file`, the write port (R197). -/
def writePort (x : Vector Byte 8) (idx v : Byte) : Vector Byte 8 :=
  if h : idx.toNat < 8 then x.set idx.toNat v else x

/-! ## Output ports (R194, R203, R214) -/

/-- The pulses of one step: `prn_valid` with `prn_data`, `inv_valid` with `inv_op` and `inv_pc`. -/
structure Pulses where
  prn : Option Byte
  inv : Option (Byte × PcWord)
  deriving DecidableEq, Repr

/-- No pulse. -/
def Pulses.quiet : Pulses := ⟨Option.none, Option.none⟩

/-- The events the host reads off the ports in one step (R120, R203). -/
def Pulses.events (p : Pulses) : List Event :=
  (p.prn.map Event.print).toList ++ (p.inv.map fun q => Event.invalid q.1 q.2).toList

/-- `halted` (R194). -/
def State.haltedPort (s : State) : Bool := !s.run

/-- `fault_valid` (R194). -/
def State.faultValidPort (s : State) : Bool := s.fault.isSome

/-- `fault_kind` (R214). -/
def Fault.kindCode : Fault → BitVec 2
  | .unsupportedAluOp _ => 1
  | .memAddressOutOfRange _ => 2
  | .regIndexOutOfRange _ => 3

/-- `fault_info` (R214): the tag, the address or the operand byte. -/
def Fault.infoCode : Fault → BitVec 9
  | .unsupportedAluOp tag => tag.zeroExtend 9
  | .memAddressOutOfRange addr => BitVec.ofNat 9 addr
  | .regIndexOutOfRange i => i.zeroExtend 9

/-! ## Composition (R205) -/

/-- Phase 3, commit: the writes of a step whose checks have passed, in R205's order. `va` is read port A, `m` the data
read, `res` what goes to the write port from the ALU, `fl` the new FL. -/
def commit (s : State) (c : Control) (l : Latches) (va m res fl : Byte) : State :=
  let x1 := if c.sp = .dec then s.regs.set 7 (spNext .dec s.sp) else s.regs
  let mem' :=
    match c.mem with
    | .writeRa => s.mem.write (stackAddr .dec s.sp).toNat va
    | .writeReturn => s.mem.write (stackAddr .dec s.sp).toNat ((s.pc + 2).truncate 8)
    | .none => s.mem
    | .read => s.mem
  let x2 :=
    match c.w with
    | .opB => writePort x1 l.opA l.opB
    | .res => writePort x1 l.opA res
    | .rdata => writePort x1 l.opA m
    | .off => x1
  let x3 := if c.sp = .inc then x2.set 7 (spNext .inc x2[7]) else x2
  { s with
    regs := x3
    mem := mem'
    fl := if c.flWe then fl else s.fl
    run := if c.halt then false else s.run
    pc := pcNext c.pcSel s.pc c.len va m (s.fl.getLsbD 0) }

/-- One step of the composed blocks: the new state of the core (OUT apart) and the pulses (R205). DESIGN CHOICE
(notes/assumptions/20.md): the data read, the ALU result and the new FL are 0 in a step that does not drive them; `commit` uses
none of them then. -/
def coreCycle (s : State) : State × Pulses :=
  if !s.run || s.fault.isSome then (s, Pulses.quiet)
  else
    match fetchBlock s.pc s.mem with
    | .error f => ({ s with fault := some f }, Pulses.quiet)
    | .ok l =>
      let c := decoder l.ir
      let x' := if c.sp = .dec then s.regs.set 7 (spNext .dec s.sp) else s.regs
      let e := s.fl.getLsbD 0
      let raEn := decide (c.ra = .on) || (decide (c.ra = .taken) && pcTaken c.pcSel e)
      match idxFault raEn c.rb (decide (c.w ≠ .off)) l.opA l.opB with
      | some bad => ({ s with fault := some (.regIndexOutOfRange bad) }, Pulses.quiet)
      | Option.none =>
        let va := readPort x' raEn l.opA
        let vb := readPort x' c.rb l.opB
        let m := if c.mem = .read then s.mem.read (stackAddr .inc s.sp).toNat else 0
        let pulses : Pulses :=
          ⟨if c.print then some va else Option.none, if c.known then Option.none else some (l.ir, s.pc)⟩
        match c.aluOp with
        | Option.none => (commit s c l va m 0 0, pulses)
        | some tag =>
          match alu tag va vb with
          | .result v => (commit s c l va m v 0, pulses)
          | .flags fl => (commit s c l va m 0 fl, pulses)
          | .unsupported => ({ s with fault := some (.unsupportedAluOp tag) }, Pulses.quiet)

/-- One step of the composed blocks as the host sees it: OUT gains the step's pulses (R120, R203, R205). -/
def coreStep (s : State) : State :=
  let r := coreCycle s
  { r.1 with out := s.out ++ r.2.events }

end Sys2Proof.Machine
end

