-- ==== Sys2Proof/Machine/HostSide.lean ====
section
/-! DEFINITION. What the host does to the core and reads from it, outside a run: the reset input, the load port and
the boot sequence (spec/70_reset_and_hazards.md R221 to R223), and the trace view (spec/60_exceptions.md R220). None of it
is part of a step (notes/assumptions/17.md, 22.md). -/

namespace Sys2Proof.Machine

/-- `rst` (R221): every state element to its reset value; memory keeps what it holds. It is the only thing that
clears `FAULT` or sets `RUN` back to true. -/
def State.hostReset (s : State) : State := State.resetWith s.mem

/-- The load port (R194, R202, R222): `mem[ld_addr] <- ld_data`. The host uses it only while it holds the core in
reset, before the run. -/
def State.hostLoad (s : State) (addr data : Byte) : State := s.store addr data

/-- `MEM_INIT` for a program: its bytes at sequential addresses from 0, the fill in every other cell (R123, R222). -/
def memInit (prog : List Byte) : Memory := Memory.place [] 0 prog

/-- Boot (R222): the state the run starts from when the host has loaded `prog` while reset was held; no run starts
from a program longer than memory (R211; spec/93_implementation_defined.md U12). -/
def boot (prog : List Byte) : Option State :=
  if prog.length ≤ Config.memSize then some (State.resetWith (memInit prog)) else none

/-- The trace view (R220): PC, FL, the next three memory bytes (absent above address 255) and the eight registers. -/
structure TraceView where
  pc : PcWord
  fl : Byte
  next : List (Option Byte)
  regs : Vector Byte 8
  deriving DecidableEq, Repr

/-- The trace of a state; it reads the state and changes none (R220). -/
def State.trace (s : State) : TraceView where
  pc := s.pc
  fl := s.fl
  next := [s.pc.toNat, s.pc.toNat + 1, s.pc.toNat + 2].map fun a =>
    if a < Config.memSize then some (s.mem.read a) else none
  regs := s.regs

end Sys2Proof.Machine
end

