-- ==== Sys2Proof/Machine/Loader.lean ====
section
/-! DEFINITION. The host loader's text format (spec/30_encoding.md R154, spec/60_exceptions.md R211): lines that are blank,
a comment, or one byte as eight binary digits. It stands outside the core; a run starts only from a complete image
(notes/assumptions/21.md). -/

namespace Sys2Proof.Machine

/-- `LoadFailure` (R206, R211): the host does not start the run. -/
inductive LoadFailure where
  /-- A line that is neither blank, nor a comment, nor eight binary digits (R211). -/
  | badLine (number : Nat)
  /-- More bytes than memory has cells (spec/93_implementation_defined.md U12). -/
  | tooLong
  deriving DecidableEq, Repr

/-- A space, a tab or a carriage return around the text of a line. -/
def isBlank (c : Char) : Bool := c == ' ' || c == '\t' || c == '\r'

/-- The line without its comment and without the blanks around what is left (R154). -/
def stripLine (line : List Char) : List Char :=
  (((line.takeWhile (· != '#')).dropWhile isBlank).reverse.dropWhile isBlank).reverse

/-- A binary digit. -/
def binaryDigit : Char → Option Bool
  | '0' => some false
  | '1' => some true
  | _ => none

/-- The number that binary digits write, the most significant first (R106, R154). -/
def binaryValue : List Char → Nat → Option Nat
  | [], acc => some acc
  | c :: rest, acc =>
    match binaryDigit c with
    | some d => binaryValue rest (2 * acc + d.toNat)
    | none => none

/-- One line: `some none` for a blank line or a comment, `some (some v)` for a byte, `none` for anything else (R154). -/
def parseLine (line : List Char) : Option (Option Byte) :=
  let text := stripLine line
  if text.isEmpty then some none
  else if text.length = 8 then (binaryValue text 0).map fun v => some (wrap8 v)
  else none

/-- The bytes of a program text, in order; `n` is the number of its first line (R154). -/
def parseLines : Nat → List (List Char) → Except LoadFailure (List Byte)
  | _, [] => .ok []
  | n, line :: rest =>
    match parseLine line with
    | none => .error (.badLine n)
    | some none => parseLines (n + 1) rest
    | some (some v) =>
      match parseLines (n + 1) rest with
      | .ok vs => .ok (v :: vs)
      | .error f => .error f

/-- Loading a program text: the state its run starts from, or the failure that keeps the run from starting (R211,
R222). -/
def bootText (lines : List (List Char)) : Except LoadFailure State :=
  match parseLines 1 lines with
  | .error f => .error f
  | .ok prog =>
    match boot prog with
    | some s => .ok s
    | none => .error .tooLong

/-- A byte written as a line of the format: eight binary digits, the most significant first (R154). -/
def byteLine (v : Byte) : List Char :=
  [7, 6, 5, 4, 3, 2, 1, 0].map fun n => if v.getLsbD n then '1' else '0'

end Sys2Proof.Machine
end

