-- ==== Sys2Proof/Safety.lean ====
section
/-! DEFINITION. What counts as running, ended and safe, in the terms the statements use: the invariants of
spec/10_state.md R122 and the outcomes of a run (spec/40_execution_cycle.md R168). -/

namespace Sys2Proof.Machine

/-- The machine takes steps (R155). -/
abbrev State.Running (s : State) : Prop := s.run = true ∧ s.fault = none

/-- The machine has executed HLT: the only normal end (R168a). -/
abbrev State.Halted (s : State) : Prop := s.run = false ∧ s.fault = none

/-- A fatal fault has stopped the machine; RUN is still true (R168b, R212). -/
abbrev State.Faulted (s : State) : Prop := s.run = true ∧ s.fault.isSome = true

/-- The next fetch is in range (R158). -/
abbrev State.CanFetch (s : State) : Prop := s.pc.toNat ≤ 253

/-- The byte at `PC + k`. -/
def State.byteAt (s : State) (k : Nat) : Byte := s.mem.read (s.pc.toNat + k)

/-- FL holds one of its four patterns: none before the first CMP, then E, G or L (R115, R122b). -/
def flPattern (fl : Byte) : Bool := fl == 0x00 || fl == 0x01 || fl == 0x02 || fl == 0x04

/-- The fault record is one that a program can cause, and PC still addresses the instruction that caused it (R181,
R209, R210, R212). -/
def faultExplained (pc : PcWord) : Option Fault → Bool
  | none => true
  | some (.unsupportedAluOp _) => false
  | some (.memAddressOutOfRange addr) => decide (254 ≤ pc.toNat ∧ addr = max 256 pc.toNat)
  | some (.regIndexOutOfRange i) => decide (pc.toNat ≤ 253 ∧ 7 < i.toNat)

/-- The invariant of every state the machine reaches (R122): memory in canonical form (every address below 256, R122a
and d), FL a pattern (b), PC at most 257 (c), a halted machine not faulted (R168) and a fault record explained. -/
structure State.Inv (s : State) : Prop where
  mem_canonical : s.mem.wf = true
  fl_pattern : flPattern s.fl = true
  pc_bound : s.pc.toNat ≤ 257
  halted_not_faulted : s.run = false → s.fault = none
  fault_explained : faultExplained s.pc s.fault = true

/-- The 16 opcode bytes as R147 prints them, in hexadecimal. -/
def isOpcodeByte (op : Byte) : Bool :=
  op == 0x82 || op == 0x47 || op == 0x01 || op == 0xA0 || op == 0xA2 || op == 0xA8 || op == 0xAA || op == 0xAB ||
  op == 0x45 || op == 0x46 || op == 0x50 || op == 0x11 || op == 0xA7 || op == 0x54 || op == 0x55 || op == 0x56

/-- The instruction `i` answers a next state in which register `r` holds `v`, PC has moved by `n` and nothing else has
changed: no other register, not FL, RUN, FAULT, OUT, and no byte of memory. -/
def WritesOneReg (i : Instr) (s : State) (r : RegIndex) (v : Byte) (n : PcWord) : Prop :=
  ∃ t, exec i s = .next t ∧ t.reg r = v ∧ (∀ q, q ≠ r → t.reg q = s.reg q) ∧
    t = { s with regs := t.regs, pc := s.pc + n }

/-- A comment as it stands in a line of program text: nothing, or a `#` mark and any text (R154). -/
def commentText : Option (List Char) → List Char
  | none => []
  | some text => '#' :: text

/-- What a line of program text holds (R154): `none` for a blank line or a comment, `some v` for the byte `v` as eight
binary digits, in either case with or without a comment after it. The blanks that may stand around the byte are the model's choice
(notes/assumptions/21.md). -/
def LineHolds (line : List Char) : Option Byte → Prop
  | none => ∃ pad comment, pad.all isBlank = true ∧ line = pad ++ commentText comment
  | some v => ∃ before after comment, before.all isBlank = true ∧ after.all isBlank = true ∧
      line = before ++ byteLine v ++ after ++ commentText comment

end Sys2Proof.Machine

namespace Sys2Proof

/-- The instruction's own data access writes memory (R131). -/
def Instr.stores : Instr → Bool
  | .ldi _ _ => false
  | .prn _ => false
  | .hlt => false
  | .add _ _ => false
  | .mul _ _ => false
  | .and _ _ => false
  | .or _ _ => false
  | .xor _ _ => false
  | .push _ => true
  | .pop _ => false
  | .call _ => true
  | .ret => false
  | .cmp _ _ => false
  | .jmp _ => false
  | .jeq _ => false
  | .jne _ => false

/-- The registers an instruction writes, as operand-byte values (the "Writes" column of R111). -/
def Instr.writesRegs : Instr → List Nat
  | .ldi a _ => [a.toNat]
  | .prn _ => []
  | .hlt => []
  | .add a _ => [a.toNat]
  | .mul a _ => [a.toNat]
  | .and a _ => [a.toNat]
  | .or a _ => [a.toNat]
  | .xor a _ => [a.toNat]
  | .push _ => [7]
  | .pop a => [a.toNat, 7]
  | .call _ => [7]
  | .ret => [7]
  | .cmp _ _ => []
  | .jmp _ => []
  | .jeq _ => []
  | .jne _ => []

/-- The registers an instruction reads, given E (the "Reads" column of R111). -/
def Instr.readsRegs (flE : Bool) : Instr → List Nat
  | .ldi _ _ => []
  | .prn a => [a.toNat]
  | .hlt => []
  | .add a b => [a.toNat, b.toNat]
  | .mul a b => [a.toNat, b.toNat]
  | .and a b => [a.toNat, b.toNat]
  | .or a b => [a.toNat, b.toNat]
  | .xor a b => [a.toNat, b.toNat]
  | .push a => [7, a.toNat]
  | .pop _ => [7]
  | .call a => [7, a.toNat]
  | .ret => [7]
  | .cmp a b => [a.toNat, b.toNat]
  | .jmp a => [a.toNat]
  | .jeq a => if flE then [a.toNat] else []
  | .jne a => if flE then [] else [a.toNat]

/-- The first register operand byte above 7 that the instruction accesses, given E: read ports first, `a` before `b`,
then the write port (R111, R210). -/
def Instr.badOperand (flE : Bool) : Instr → Option Byte
  | .ldi a _ => if 7 < a.toNat then some a else none
  | .prn a => if 7 < a.toNat then some a else none
  | .hlt => none
  | .add a b => if 7 < a.toNat then some a else if 7 < b.toNat then some b else none
  | .mul a b => if 7 < a.toNat then some a else if 7 < b.toNat then some b else none
  | .and a b => if 7 < a.toNat then some a else if 7 < b.toNat then some b else none
  | .or a b => if 7 < a.toNat then some a else if 7 < b.toNat then some b else none
  | .xor a b => if 7 < a.toNat then some a else if 7 < b.toNat then some b else none
  | .push a => if 7 < a.toNat then some a else none
  | .pop a => if 7 < a.toNat then some a else none
  | .call a => if 7 < a.toNat then some a else none
  | .ret => none
  | .cmp a b => if 7 < a.toNat then some a else if 7 < b.toNat then some b else none
  | .jmp a => if 7 < a.toNat then some a else none
  | .jeq a => if flE && decide (7 < a.toNat) then some a else none
  | .jne a => if !flE && decide (7 < a.toNat) then some a else none

end Sys2Proof
end

