-- ==== Sys2Proof/Certificates/Slice0/Obligations.lean ====
section
/-! DEFINITION. The statements about the model of DLCA CORE. Each docstring names the rule or section of spec/ it
formalises, and the decision (D<n>, spec/92_eei_decisions.md) or log entry it rests on where it rests on one. -/

open Sys2Proof Sys2Proof.Machine

/-! ## Reset and boot -/

/-- R123, R221: what reset leaves. SP = 0xF4 and PC = 0 are the source's; the zeros of R0 to R6, FL, RUN, FAULT and OUT
are the spec's decisions D5, D6, D8, D9, D11 (log 3, 1, 11); the zero fill of an unloaded memory is D7 (log 4). Reset itself keeps
memory. -/
def Obligations.ResetGivesEveryFieldItsResetValue : Prop :=
  (∀ s : State, s.hostReset.reg 7 = 0xF4 ∧ (∀ r, r ≠ 7 → s.hostReset.reg r = 0) ∧ s.hostReset.pc = 0 ∧
    s.hostReset.fl = 0 ∧ s.hostReset.run = true ∧ s.hostReset.fault = none ∧ s.hostReset.out = [] ∧
    s.hostReset.mem = s.mem) ∧
  State.reset = State.reset.hostReset ∧ ∀ a, State.reset.mem.read a = 0

/-- R122, R123: the invariant holds at reset, whatever canonical image memory holds. -/
def Obligations.ResetMeetsTheInvariant : Prop :=
  State.reset.Inv ∧ ∀ image : Memory, image.wf = true → (State.resetWith image).Inv

/-- R222, U12: a program of at most 256 bytes is at sequential addresses from 0 when the run starts, every other cell
is 0 (D7, log 4), the rest is the reset state and the machine runs; a longer program gives no run. -/
def Obligations.BootPlacesTheProgram : Prop :=
  ∀ prog : List Byte,
    (prog.length ≤ 256 → ∃ s, boot prog = some s ∧ s.Inv ∧ s.Running ∧ s = { State.reset with mem := s.mem } ∧
      ∀ k, s.mem.read k = prog.getD k 0) ∧
    (256 < prog.length → boot prog = none)

/-- R154, R211: of lines each of which is blank, a comment, or a byte as eight binary digits with or without a comment
after it, in any mix, the loader reads exactly the bytes written, in order, and skips the other lines; the first line
that is none of the three is the failure, reported with its number, whatever follows it. `p.2` is what the line `p.1`
holds. The blanks allowed around a byte, and the number in the report, are the model's choice (log 21). -/
def Obligations.LoaderReadsBackWrittenBytes : Prop :=
  ∀ (n : Nat) (text : List (List Char × Option Byte)), (∀ p ∈ text, LineHolds p.1 p.2) →
    parseLines n (text.map Prod.fst) = .ok (text.filterMap Prod.snd) ∧
    ∀ (bad : List Char) (rest : List (List Char)), (∀ c, ¬ LineHolds bad c) →
      parseLines n (text.map Prod.fst ++ bad :: rest) = .error (.badLine (n + text.length))

/-! ## Encoding -/

/-- R147: a word of each family, written out from the spec's encoding, decodes to its instruction. -/
def Obligations.WrittenOutWordsDecode : Prop :=
  decode 0b10000010 0 8 = .ok (.ldi 0 8) ∧ decode 0b10100010 0 1 = .ok (.mul 0 1) ∧
  decode 0b01000101 3 0xFF = .ok (.push 3) ∧ decode 0b00010001 0xFF 0xFF = .ok .ret ∧
  decode 0b01010101 2 0 = .ok (.jeq 2) ∧ decode 0b00000001 0 0 = .ok .hlt

/-- R148: an opcode byte selects an instruction if and only if all eight of its bits equal one of the 16 rows of
R147, and the row it selects is the one with that opcode byte; operand bytes take no part in the selection. -/
def Obligations.DecodingIsByExactMatch : Prop :=
  ∀ op a b : Byte, ((∃ i, decode op a b = .ok i) ↔ isOpcodeByte op = true) ∧
    ∀ i, decode op a b = .ok i → opcodeOf i = op

/-- R141, R144: every instruction, with every value of every operand byte, is read back from its bytes, whatever bytes
follow, and exactly its bytes are taken. -/
def Obligations.DecodeReadsBackEncode : Prop :=
  ∀ (i : Instr) (rest : List Byte), decodeBytes (encode i ++ rest) = .ok (i, rest)

/-- R141, R143: the bytes of a decoded instruction are the first `len(op)` bytes it was decoded from. -/
def Obligations.EncodeReadsBackDecode : Prop :=
  ∀ (op a b : Byte) (i : Instr), decode op a b = .ok i → encode i = [op, a, b].take (op.toNat / 64 + 1)

/-! ## Memory -/

/-- R126: reading after a write gives the value written and every other cell is unchanged, for every address in range; a
cell not written since the run started reads as the image `MEM_INIT` the run started from. (A read is a function of
memory: it changes nothing.) -/
def Obligations.MemoryReadsTheLatestWrite : Prop :=
  (∀ (m : Memory) (a b : Nat) (v : Byte), m.wf = true → a < 256 →
    memRead (m.write a v) a = .ok v ∧ (b < 256 → b ≠ a → memRead (m.write a v) b = memRead m b)) ∧
  ∀ (image : Memory) (a : Nat), a < 256 → memRead (State.resetWith image).mem a = .ok (image.read a)

/-- The model's own choice of form: two canonical memories that read alike at every address are the same data, so that
equal states are equal machines. -/
def Obligations.CanonicalMemoriesThatReadAlikeAreEqual : Prop :=
  ∀ m n : Memory, m.wf = true → n.wf = true → (∀ a, a < 256 → m.read a = n.read a) → m = n

/-! ## The step -/

/-- R160, R163: a running machine whose three bytes at PC decode to an instruction runs exactly that instruction; `exec` holds
the handler and the loop's PC rule, and `step` adds nothing around it (log 18). -/
def Obligations.StepRunsTheDecodedInstruction : Prop :=
  ∀ (s : State) (i : Instr), s.Running → s.CanFetch →
    decode (s.byteAt 0) (s.byteAt 1) (s.byteAt 2) = .ok i → step s = exec i s

/-- R141, R156, R157: an instruction whose bytes stand at PC is the one that runs, whatever follows them. -/
def Obligations.StepRunsTheEncodedInstruction : Prop :=
  ∀ (s : State) (i : Instr), s.Running → s.CanFetch →
    (∀ k v, (encode i)[k]? = some v → s.byteAt k = v) → step s = exec i s

/-- The fetch word the host places (log 16) is the instruction the next step runs. -/
def Obligations.PlacedFetchWordRuns : Prop :=
  ∀ (s : State) (nbits w : Nat) (i : Instr), s.Running → s.CanFetch → s.mem.wf = true →
    decodeTableWord nbits w = some i →
    step (s.withFetchWord nbits w) = exec i (s.withFetchWord nbits w) ∧
    s.withFetchWord nbits w = { s with mem := (s.withFetchWord nbits w).mem }

/-- R149, R161, R207: an unknown opcode is reported once and skipped by its apparent length, or not at all when its bit 4 is
set; nothing else changes. The payload of the report is the spec's decision D11 (log 11), length 4 is D17 and the unmoved PC D22
(log 13). -/
def Obligations.UnknownOpcodeIsReportedAndSkipped : Prop :=
  ∀ s : State, s.Running → s.CanFetch → isOpcodeByte (s.byteAt 0) = false →
    step s = .next { s with
      out := s.out ++ [Event.invalid (s.byteAt 0) s.pc]
      pc := if (s.byteAt 0).getLsbD 4 then s.pc else s.pc + BitVec.ofNat 9 ((s.byteAt 0).toNat / 64 + 1) }

/-- R166: an unknown opcode with bit 4 set hangs the machine: after any number of steps only OUT has grown, by one
report per step (the spec's decision D22, log 13). -/
def Obligations.UnknownOpcodeWithBitFourHangs : Prop :=
  ∀ (s : State) (n : Nat), s.Running → s.CanFetch → isOpcodeByte (s.byteAt 0) = false →
    (s.byteAt 0).getLsbD 4 = true →
    Host.Core.run Sys2Proof.core n s =
      .next { s with out := s.out ++ List.replicate n (Event.invalid (s.byteAt 0) s.pc) }

/-- R158, R209: a step with PC above 253 is the fault of the first address above 255, and nothing else changes (the
spec's decisions D1, D9, D20; log 6, 1). -/
def Obligations.FetchAboveTheTopFaults : Prop :=
  ∀ s : State, s.Running → 253 < s.pc.toNat →
    step s = .next { s with
      fault := some (.memAddressOutOfRange (if s.pc.toNat < 256 then 256 else s.pc.toNat)) }

/-- R155, R122f, R223: a halted or faulted machine never changes, however many steps are asked of it (the model answers the
state itself: log 2). -/
def Obligations.StoppedMachineNeverChanges : Prop :=
  ∀ (s : State) (n : Nat), s.run = false ∨ s.fault ≠ none → Host.Core.run Sys2Proof.core n s = .next s

/-- R163, R168: from every state a step answers a next state; nothing is refused and no step is undefined (a fatal fault
is a next state with FAULT set: log 1). -/
def Obligations.EveryStepAnswersANextState : Prop :=
  ∀ s : State, ∃ t, step s = .next t

/-- R162, R164: PC after a completed step, for every opcode byte. With bit 4 clear it is PC plus the instruction length
`(opcode >> 6) + 1`, known opcode or not, and the sum does not wrap; with bit 4 set it is what the handler put there, and
the loop does not also advance it, so that an unknown opcode with bit 4 set leaves PC where it was. A register target is
read in the state the step leaves, in which CALL's SP decrement is the only register write. Length 4 is the
spec's decision D17 and the unmoved PC D22 (log 13); the order of CALL R7 is D15 (log 9). -/
def Obligations.PcAfterACompletedStep : Prop :=
  ∀ s t : State, s.Running → s.CanFetch → step s = .next t → t.fault = none →
    ((s.byteAt 0).getLsbD 4 = false → t.pc.toNat = s.pc.toNat + ((s.byteAt 0 >>> 6).toNat + 1)) ∧
    (s.byteAt 0 ∈ [0x82, 0xA0, 0xA2, 0xA8, 0xAA, 0xAB, 0xA7] → t.pc.toNat = s.pc.toNat + 3) ∧
    (s.byteAt 0 ∈ [0x47, 0x45, 0x46] → t.pc.toNat = s.pc.toNat + 2) ∧
    (s.byteAt 0 = 0x01 → t.pc.toNat = s.pc.toNat + 1) ∧
    (s.byteAt 0 ∈ [0x50, 0x54] →
      ∃ h : (s.byteAt 1).toNat < 8, t.pc.toNat = (t.reg ⟨(s.byteAt 1).toNat, h⟩).toNat) ∧
    (s.byteAt 0 = 0x11 → t.pc.toNat = (s.mem.read s.sp.toNat).toNat) ∧
    (s.byteAt 0 = 0x55 → s.fl.getLsbD 0 = true →
      ∃ h : (s.byteAt 1).toNat < 8, t.pc.toNat = (t.reg ⟨(s.byteAt 1).toNat, h⟩).toNat) ∧
    (s.byteAt 0 = 0x55 → s.fl.getLsbD 0 = false → t.pc.toNat = s.pc.toNat + 2) ∧
    (s.byteAt 0 = 0x56 → s.fl.getLsbD 0 = false →
      ∃ h : (s.byteAt 1).toNat < 8, t.pc.toNat = (t.reg ⟨(s.byteAt 1).toNat, h⟩).toNat) ∧
    (s.byteAt 0 = 0x56 → s.fl.getLsbD 0 = true → t.pc.toNat = s.pc.toNat + 2) ∧
    (isOpcodeByte (s.byteAt 0) = false → (s.byteAt 0).getLsbD 4 = true → t.pc = s.pc)

/-! ## Faults -/

/-- R212: a step that sets FAULT changes nothing else: every register, FL, RUN, PC, every memory cell and OUT keep the
values they had (the mechanism is the spec's decision D9, log 1). -/
def Obligations.FaultEntryChangesNothingElse : Prop :=
  ∀ (s t : State) (f : Fault), s.fault = none → step s = .next t → t.fault = some f →
    t = { s with fault := some f }

/-- R206, R213, R181: a running machine's step faults exactly when its PC is above 253, or, fetched in range, when it
decodes to an instruction that accesses a register operand byte above 7, reporting the first one; no program meets
`UnsupportedAluOp` (the policies are the spec's decisions D1, D2, D20; log 6, 7, 12). -/
def Obligations.StepFaultsExactlyOn : Prop :=
  ∀ (s t : State) (f : Fault), s.Running → step s = .next t →
    (t.fault = some f ↔
      (253 < s.pc.toNat ∧ f = .memAddressOutOfRange (max 256 s.pc.toNat)) ∨
      (s.pc.toNat ≤ 253 ∧ ∃ i bad, decode (s.byteAt 0) (s.byteAt 1) (s.byteAt 2) = .ok i ∧
        i.badOperand s.flagE = some bad ∧ f = .regIndexOutOfRange bad))

/-- R210, R172: an instruction that accesses a register operand byte above 7 takes the fault that reports it, `a` before
`b`, and nothing of the instruction takes effect (the spec's decision D2, log 7). -/
def Obligations.RegisterIndexOutOfRangeFaults : Prop :=
  ∀ (i : Instr) (s : State) (bad : Byte), i.badOperand s.flagE = some bad →
    exec i s = .next { s with fault := some (.regIndexOutOfRange bad) }

/-- R145, R111: an instruction whose accessed register operands are all 0 to 7 completes without a fault; an operand byte it
does not access, as on the not-taken path of JEQ and JNE, is not checked (the spec's decision D2, log 7). -/
def Obligations.InstructionInRangeCompletes : Prop :=
  ∀ (i : Instr) (s : State), i.badOperand s.flagE = none → ∃ t, exec i s = .next t ∧ t.fault = s.fault

/-- R181, R198: the ALU meets the unsupported condition for the tags outside the six and for no other (the 3-bit tag
is the spec's decision D16, log 12). -/
def Obligations.AluIsUnsupportedOnlyOutsideTheSixTags : Prop :=
  ∀ (tag : AluTag) (va vb : Byte), alu tag va vb = .unsupported ↔ 5 < tag.toNat

/-! ## LDI, PRN, HLT -/

/-- R169: LDI writes the immediate as it stands to the destination register; nothing else but PC changes. -/
def Obligations.LdiWritesTheImmediate : Prop :=
  ∀ (a v : Byte) (s : State) (ha : a.toNat < 8), WritesOneReg (.ldi a v) s ⟨a.toNat, ha⟩ v 3

/-- R170: PRN emits exactly one event, the register's current content; nothing else but PC changes. -/
def Obligations.PrnEmitsTheRegister : Prop :=
  ∀ (a : Byte) (s : State) (ha : a.toNat < 8),
    exec (.prn a) s = .next { s with out := s.out ++ [Event.print (s.reg ⟨a.toNat, ha⟩)], pc := s.pc + 2 }

/-- R171, R165: HLT makes RUN false, and PC still advances by 1; nothing else changes. -/
def Obligations.HltClearsRunAndAdvances : Prop :=
  ∀ s : State, exec .hlt s = .next { s with run := false, pc := s.pc + 1 }

/-- R168a, R171, R223: once a step has executed HLT the state is final: PC is the HLT's address plus 1, and no number of
further steps changes anything (that a stopped machine's step answers its state: log 2). -/
def Obligations.HltIsFinal : Prop :=
  ∀ (s : State) (n : Nat), s.Running → s.CanFetch → s.byteAt 0 = 0x01 →
    Host.Core.run Sys2Proof.core (n + 1) s = .next { s with run := false, pc := s.pc + 1 }

/-! ## ALU -/

/-- R173, R175, R176: ADD and MUL write the exact result modulo 256 to the first register; every other register, FL,
memory and the rest are unchanged, whatever the sum or product. Both registers are read before the write, so the two
operands may be the same register (R172). -/
def Obligations.AddAndMulAreModulo256 : Prop :=
  ∀ (a b : Byte) (s : State) (ha : a.toNat < 8) (hb : b.toNat < 8), ∃ sum product : Byte,
    sum.toNat = ((s.reg ⟨a.toNat, ha⟩).toNat + (s.reg ⟨b.toNat, hb⟩).toNat) % 256 ∧
    product.toNat = ((s.reg ⟨a.toNat, ha⟩).toNat * (s.reg ⟨b.toNat, hb⟩).toNat) % 256 ∧
    WritesOneReg (.add a b) s ⟨a.toNat, ha⟩ sum 3 ∧ WritesOneReg (.mul a b) s ⟨a.toNat, ha⟩ product 3

/-- R177, R178, R179: bit `k` of the result of AND, OR, XOR is the conjunction, disjunction, difference of bit `k` of the
two registers; nothing but the first register and PC changes. -/
def Obligations.AndOrXorAreBitwise : Prop :=
  ∀ (a b : Byte) (s : State) (ha : a.toNat < 8) (hb : b.toNat < 8), ∃ u v w : Byte,
    (∀ k, k < 8 → u.getLsbD k = ((s.reg ⟨a.toNat, ha⟩).getLsbD k && (s.reg ⟨b.toNat, hb⟩).getLsbD k) ∧
      v.getLsbD k = ((s.reg ⟨a.toNat, ha⟩).getLsbD k || (s.reg ⟨b.toNat, hb⟩).getLsbD k) ∧
      w.getLsbD k = ((s.reg ⟨a.toNat, ha⟩).getLsbD k != (s.reg ⟨b.toNat, hb⟩).getLsbD k)) ∧
    WritesOneReg (.and a b) s ⟨a.toNat, ha⟩ u 3 ∧ WritesOneReg (.or a b) s ⟨a.toNat, ha⟩ v 3 ∧
    WritesOneReg (.xor a b) s ⟨a.toNat, ha⟩ w 3

/-- R180: CMP writes all of FL: exactly one of E, G, L, as the registers compare unsigned; no register is written (that
G means the FIRST operand is greater is the spec's decision D14, log 10). -/
def Obligations.CmpWritesThePattern : Prop :=
  ∀ (a b : Byte) (s : State) (ha : a.toNat < 8) (hb : b.toNat < 8), ∃ fl : Byte,
    exec (.cmp a b) s = .next { s with fl := fl, pc := s.pc + 3 } ∧
    ((s.reg ⟨a.toNat, ha⟩).toNat = (s.reg ⟨b.toNat, hb⟩).toNat → fl = 0b00000001) ∧
    ((s.reg ⟨b.toNat, hb⟩).toNat < (s.reg ⟨a.toNat, ha⟩).toNat → fl = 0b00000010) ∧
    ((s.reg ⟨a.toNat, ha⟩).toNat < (s.reg ⟨b.toNat, hb⟩).toNat → fl = 0b00000100)

/-- R174: only CMP writes FL: an instruction that changes FL is a CMP, and a step that changes FL executed CMP's opcode byte;
ADD, MUL, AND, OR, XOR leave FL exactly as it was. -/
def Obligations.OnlyCmpWritesFl : Prop :=
  (∀ (i : Instr) (s t : State), exec i s = .next t → t.fl ≠ s.fl → ∃ a b, i = .cmp a b) ∧
  ∀ s t : State, step s = .next t → t.fl ≠ s.fl → s.byteAt 0 = 0xA7

/-! ## Stack -/

/-- R184, R182, R113: PUSH decrements SP modulo 256 and stores the register at the new SP, which then points at the value
pushed; every other register and every other byte of memory is unchanged. PUSH R7 stores the decremented pointer (the
spec's decision D15, log 9); the wrap is D4 (log 8). -/
def Obligations.PushStoresAtTheDecrementedSp : Prop :=
  ∀ (a : Byte) (s : State) (ha : a.toNat < 8), s.mem.wf = true →
    ∃ t, exec (.push a) s = .next t ∧ t.sp = s.sp - 1 ∧ (∀ q, q ≠ 7 → t.reg q = s.reg q) ∧
      t.mem.read t.sp.toNat = (if a = 7 then s.sp - 1 else s.reg ⟨a.toNat, ha⟩) ∧
      (∀ c, c ≠ (s.sp - 1).toNat → t.mem.read c = s.mem.read c) ∧ t.mem.wf = true ∧
      t = { s with regs := t.regs, mem := t.mem, pc := s.pc + 2 }

/-- R185, R182: POP writes the byte at SP to the register, then increments SP modulo 256; memory is unchanged. POP R7
leaves the loaded value incremented (the spec's decision D15, log 9); the wrap is D4 (log 8). -/
def Obligations.PopLoadsThenIncrements : Prop :=
  ∀ (a : Byte) (s : State) (ha : a.toNat < 8),
    ∃ t, exec (.pop a) s = .next t ∧
      t.sp = (if a = 7 then s.mem.read s.sp.toNat + 1 else s.sp + 1) ∧
      (a ≠ 7 → t.reg ⟨a.toNat, ha⟩ = s.mem.read s.sp.toNat) ∧
      (∀ q : RegIndex, q ≠ 7 → q.val ≠ a.toNat → t.reg q = s.reg q) ∧
      t = { s with regs := t.regs, pc := s.pc + 2 }

/-- S3 of the source (spec/95_test_vectors.md 1.1; R184, R185): a PUSH followed by a POP into a register other than R7
restores the value pushed and the stack pointer; no other register changes. What PUSH R7 stores is the spec's decision D15 (log 9). -/
def Obligations.PushThenPopRestores : Prop :=
  ∀ (a b : Byte) (s : State) (ha : a.toNat < 8) (hb : b.toNat < 8), b ≠ 7 → s.mem.wf = true →
    ∃ t u, exec (.push a) s = .next t ∧ exec (.pop b) t = .next u ∧
      u.reg ⟨b.toNat, hb⟩ = (if a = 7 then s.sp - 1 else s.reg ⟨a.toNat, ha⟩) ∧
      ∀ q : RegIndex, q.val ≠ b.toNat → u.reg q = s.reg q

/-! ## Control transfer -/

/-- R188: CALL decrements SP, stores the return address `PC + 2` at the new SP and jumps to the register's value; every
other register and every other byte of memory is unchanged. CALL R7 jumps to the decremented pointer (the spec's
decision D15, log 9); above PC 253, where no step runs, the stored byte is the low byte of the sum (R202, log 5). -/
def Obligations.CallLinksThroughTheStack : Prop :=
  ∀ (a : Byte) (s : State) (ha : a.toNat < 8), s.mem.wf = true →
    ∃ t, exec (.call a) s = .next t ∧ t.sp = s.sp - 1 ∧ (∀ q, q ≠ 7 → t.reg q = s.reg q) ∧
      t.pc.toNat = (if a = 7 then s.sp - 1 else s.reg ⟨a.toNat, ha⟩).toNat ∧
      (t.mem.read t.sp.toNat).toNat = (s.pc.toNat + 2) % 256 ∧
      (∀ c, c ≠ (s.sp - 1).toNat → t.mem.read c = s.mem.read c) ∧ t.mem.wf = true ∧
      t = { s with regs := t.regs, mem := t.mem, pc := t.pc }

/-- R189: RET jumps to the byte at SP and increments SP modulo 256; the byte stays in memory and no other register
changes. The wrap is the spec's decision D4 (log 8). -/
def Obligations.RetJumpsToTheStackedByte : Prop :=
  ∀ s : State, ∃ t, exec .ret s = .next t ∧ t.pc.toNat = (s.mem.read s.sp.toNat).toNat ∧ t.sp = s.sp + 1 ∧
    (∀ q, q ≠ 7 → t.reg q = s.reg q) ∧ t = { s with regs := t.regs, pc := t.pc }

/-- S4 of the source (R188, R189): CALL followed by RET returns PC to `call_address + 2` with SP and every register as
before the CALL, provided the CALL's stack write did not land on its target. (With R7 as the operand the target IS
the address written, by D15, log 9: that proviso leaves R7 out.) -/
def Obligations.CallThenRetReturns : Prop :=
  ∀ (s : State) (ha : (s.byteAt 1).toNat < 8), s.Running → s.CanFetch → s.mem.wf = true →
    s.byteAt 0 = 0x50 → s.byteAt 1 ≠ 7 → (s.reg ⟨(s.byteAt 1).toNat, ha⟩).toNat ≤ 253 →
    s.reg ⟨(s.byteAt 1).toNat, ha⟩ ≠ s.sp - 1 →
    s.mem.read (s.reg ⟨(s.byteAt 1).toNat, ha⟩).toNat = 0x11 →
    ∃ u, Host.Core.run Sys2Proof.core 2 s = .next u ∧ u.pc.toNat = s.pc.toNat + 2 ∧
      (∀ q, u.reg q = s.reg q) ∧ u = { s with mem := u.mem, pc := u.pc } ∧
      ∀ c, c ≠ (s.sp - 1).toNat → u.mem.read c = s.mem.read c

/-- R190, R186: JMP sets PC to the register's value, and nothing else changes; it never advances by its length. -/
def Obligations.JmpSetsPc : Prop :=
  ∀ (a : Byte) (s : State) (ha : a.toNat < 8), ∃ t, exec (.jmp a) s = .next t ∧
    t.pc.toNat = (s.reg ⟨a.toNat, ha⟩).toNat ∧ t = { s with pc := t.pc }

/-- R191: JEQ jumps to the register's value when E is set; otherwise PC advances by 2 and the operand, whatever byte it is, is
not checked (the spec's decision D2, log 7). Nothing else changes. -/
def Obligations.JeqFollowsE : Prop :=
  ∀ (a : Byte) (s : State),
    (s.fl.getLsbD 0 = true → ∀ ha : a.toNat < 8, ∃ t, exec (.jeq a) s = .next t ∧
      t.pc.toNat = (s.reg ⟨a.toNat, ha⟩).toNat ∧ t = { s with pc := t.pc }) ∧
    (s.fl.getLsbD 0 = false → exec (.jeq a) s = .next { s with pc := s.pc + 2 })

/-- R192: JNE jumps to the register's value when E is clear; otherwise PC advances by 2 and the operand, whatever byte it is,
is not checked (the spec's decision D2, log 7). Nothing else changes. -/
def Obligations.JneFollowsNotE : Prop :=
  ∀ (a : Byte) (s : State),
    (s.fl.getLsbD 0 = false → ∀ ha : a.toNat < 8, ∃ t, exec (.jne a) s = .next t ∧
      t.pc.toNat = (s.reg ⟨a.toNat, ha⟩).toNat ∧ t = { s with pc := t.pc }) ∧
    (s.fl.getLsbD 0 = true → exec (.jne a) s = .next { s with pc := s.pc + 2 })

/-! ## Whole-machine rules -/

/-- R122: every step keeps the invariant: memory canonical and below 256, FL one of its four patterns, PC at most 257, a
halted machine not faulted, and a fault record one that a program can cause with PC still at the instruction. The fault record
is the spec's decision D9 (log 1); the canonical form is the model's own. -/
def Obligations.EveryStepKeepsTheInvariant : Prop :=
  ∀ s t : State, s.Inv → step s = .next t → t.Inv

/-- R205: the composition of the eight blocks equals the step, on every state. The ports and the blocks' division are the spec's own
(decision D13, log 20). -/
def Obligations.BlocksComposeToTheStep : Prop :=
  ∀ s : State, step s = .next (coreStep s)

/-- R120, R170, R203: OUT is the sequence of the ports' pulses: a step appends exactly its pulses, at most one; `prn_valid`
pulses exactly in a step that completes a PRN, with the register, and `inv_valid` exactly in a step that fetched an
unknown opcode, with the byte and its PC (the ports are the spec's decision D13, log 20). -/
def Obligations.OutIsTheSequenceOfPulses : Prop :=
  (∀ s t : State, step s = .next t → t.out = s.out ++ (coreCycle s).2.events) ∧
  (∀ s : State, (coreCycle s).2.events.length ≤ 1) ∧
  ∀ s : State, s.Running → s.CanFetch →
    (∀ v, (coreCycle s).2.prn = some v ↔
      s.byteAt 0 = 0x47 ∧ ∃ h : (s.byteAt 1).toNat < 8, v = s.reg ⟨(s.byteAt 1).toNat, h⟩) ∧
    (∀ p, (coreCycle s).2.inv = some p ↔ isOpcodeByte (s.byteAt 0) = false ∧ p = (s.byteAt 0, s.pc))

/-- R116, R171: only a step that executes HLT makes RUN false, and no step makes it true again. -/
def Obligations.OnlyHltWritesRun : Prop :=
  ∀ s t : State, step s = .next t → t.run ≠ s.run →
    s.run = true ∧ s.byteAt 0 = 0x01 ∧ t = { s with run := false, pc := s.pc + 1 }

/-- R131, R133: a step changes at most one byte of memory, the one at SP after the decrement, and only when it executes PUSH
or CALL; every other step leaves all of memory as it was. -/
def Obligations.OnlyPushAndCallWriteMemory : Prop :=
  ∀ (s t : State) (c : Nat), s.mem.wf = true → step s = .next t → t.mem.read c ≠ s.mem.read c →
    c = (s.sp - 1).toNat ∧ (s.byteAt 0 = 0x45 ∨ s.byteAt 0 = 0x50)

/-- R111 (the "Writes" column), R131: an instruction changes no register outside its destinations, no byte of memory unless it
is PUSH or CALL, OUT only if it is PRN, RUN only if it is HLT, and FAULT only when an accessed operand byte is above
7. -/
def Obligations.ExecFrame : Prop :=
  ∀ (i : Instr) (s t : State), exec i s = .next t →
    (∀ q : RegIndex, q.val ∉ i.writesRegs → t.reg q = s.reg q) ∧
    (i.stores = false → ∀ c, t.mem.read c = s.mem.read c) ∧
    (t.out ≠ s.out → ∃ a, i = .prn a) ∧ (t.run ≠ s.run → i = .hlt) ∧
    (t.fault ≠ s.fault → ∃ bad, i.badOperand s.flagE = some bad)

/-- R111 (the "Reads" column): a register that an instruction neither reads nor writes has no influence on what it does
to anything else. -/
def Obligations.UnreadRegisterHasNoInfluence : Prop :=
  ∀ (i : Instr) (s t : State) (q : RegIndex) (v : Byte), q.val ∉ i.readsRegs s.flagE → q.val ∉ i.writesRegs →
    exec i s = .next t → exec i (s.setReg q v) = .next (t.setReg q v)

/-- R154, R211, R222: loading a text starts the run of exactly the bytes its lines hold, at addresses from 0; a text with a line
that is none of the three forms starts no run and reports that line, counted from 1; nor does a text of more than 256
bytes (93_implementation_defined.md U12). The form of the report and the blanks are the model's choice (log 21). -/
def Obligations.LoadingATextBootsItsBytes : Prop :=
  ∀ text : List (List Char × Option Byte), (∀ p ∈ text, LineHolds p.1 p.2) →
    ((text.filterMap Prod.snd).length ≤ 256 → ∃ s, bootText (text.map Prod.fst) = .ok s ∧
      s = { State.reset with mem := s.mem } ∧ ∀ k, s.mem.read k = (text.filterMap Prod.snd).getD k 0) ∧
    (256 < (text.filterMap Prod.snd).length → bootText (text.map Prod.fst) = .error .tooLong) ∧
    ∀ (bad : List Char) (rest : List (List Char)), (∀ c, ¬ LineHolds bad c) →
      bootText (text.map Prod.fst ++ bad :: rest) = .error (.badLine (text.length + 1))
end

