-- ==== Sys2Proof/Laws/Loader.lean ====
section
/-! SUPPORT. What the loader reads from one line (spec/30_encoding.md R154): `parseLine` answers what the line holds, and
nothing when it holds none of the three forms. -/

namespace Sys2Proof.Machine

/-! ## The text of a line -/

theorem blank_ne_mark {c : Char} (h : isBlank c = true) : (c != '#') = true := by
  rw [bne_iff_ne]; rintro rfl; revert h; decide

theorem takeWhile_commentText (l : List Char) (c : Option (List Char)) (h : ∀ x ∈ l, (x != '#') = true) :
    (l ++ commentText c).takeWhile (· != '#') = l := by
  rw [List.takeWhile_append_of_pos h]
  cases c <;> simp [commentText]

theorem dropWhile_commentText (line : List Char) : ∃ c, line.dropWhile (· != '#') = commentText c := by
  induction line with
  | nil => exact ⟨none, rfl⟩
  | cons x xs ih =>
    by_cases h : x = '#'
    · exact ⟨some xs, by simp [h, commentText]⟩
    · obtain ⟨c, hc⟩ := ih
      exact ⟨c, by simpa [List.dropWhile_cons, h] using hc⟩

/-- What is left of a line is the line without blanks on either side and without its comment. -/
theorem stripLine_decompose (line : List Char) : ∃ before after comment,
    before.all isBlank = true ∧ after.all isBlank = true ∧
    line = before ++ stripLine line ++ after ++ commentText comment := by
  obtain ⟨c, hc⟩ := dropWhile_commentText line
  refine ⟨(line.takeWhile (· != '#')).takeWhile isBlank,
    (((line.takeWhile (· != '#')).dropWhile isBlank).reverse.takeWhile isBlank).reverse, c, ?_, ?_, ?_⟩
  · exact List.all_takeWhile
  · rw [List.all_reverse]; exact List.all_takeWhile
  · unfold stripLine
    rw [List.append_assoc _ _ (List.reverse _), ← List.reverse_append, List.takeWhile_append_dropWhile, List.reverse_reverse,
      List.takeWhile_append_dropWhile, ← hc, List.takeWhile_append_dropWhile]

/-- Blanks on either side, and a comment, are dropped from a text that begins and ends with no blank and has no `#`. -/
theorem stripLine_of_text (before text after : List Char) (comment : Option (List Char))
    (hb : before.all isBlank = true) (ha : after.all isBlank = true) (hm : ∀ x ∈ text, (x != '#') = true)
    (hd : text.dropWhile isBlank = text) (hr : text.reverse.dropWhile isBlank = text.reverse) :
    stripLine (before ++ text ++ after ++ commentText comment) = text := by
  have hb' := List.all_eq_true.mp hb
  have ha' := List.all_eq_true.mp ha
  unfold stripLine
  rw [takeWhile_commentText _ _ (by
    intro x hx
    rcases List.mem_append.mp hx with hx | hx
    · rcases List.mem_append.mp hx with hx | hx
      · exact blank_ne_mark (hb' x hx)
      · exact hm x hx
    · exact blank_ne_mark (ha' x hx))]
  rw [List.append_assoc, List.dropWhile_append_of_pos hb']
  cases text with
  | nil =>
    rw [List.nil_append, List.dropWhile_eq_nil_iff.mpr ha']; rfl
  | cons t ts =>
    have ht : ¬ isBlank t = true := by
      intro h
      rw [List.dropWhile_cons_of_pos h] at hd
      have := congrArg List.length hd
      have := (List.dropWhile_sublist isBlank (l := ts)).length_le
      simp at *; omega
    rw [List.cons_append, List.dropWhile_cons_of_neg ht, ← List.cons_append, List.reverse_append,
      List.dropWhile_append_of_pos (by intro x hx; exact ha' x (List.mem_reverse.mp hx)), hr, List.reverse_reverse]

/-! ## Eight binary digits -/

theorem byteLine_no_mark (v : Byte) (x : Char) (hx : x ∈ byteLine v) : (x != '#') = true := by
  obtain ⟨n, _, rfl⟩ := List.mem_map.mp hx
  split <;> decide

theorem byteLine_dropWhile : ∀ v : Byte, (byteLine v).dropWhile isBlank = byteLine v := by decide
theorem byteLine_reverse_dropWhile : ∀ v : Byte, (byteLine v).reverse.dropWhile isBlank = (byteLine v).reverse := by decide
theorem binaryValue_byteLine : ∀ v : Byte, (binaryValue (byteLine v) 0).map wrap8 = some v := by decide

/-- A list of digits that has a value is the digits of some bits. -/
theorem binaryValue_digits (l : List Char) (acc n : Nat) (h : binaryValue l acc = some n) :
    ∃ bits : List Bool, l = bits.map (fun b => if b then '1' else '0') ∧ bits.length = l.length := by
  induction l generalizing acc with
  | nil => exact ⟨[], rfl, rfl⟩
  | cons c cs ih =>
    simp only [binaryValue] at h
    split at h
    · rename_i d hd
      obtain ⟨bits, hb, hl⟩ := ih _ h
      refine ⟨d :: bits, ?_, by simp [hl]⟩
      have : c = if d then '1' else '0' := by
        unfold binaryDigit at hd
        split at hd <;> cases hd <;> rfl
      rw [List.map_cons, ← hb, this]
    · cases h

/-- Eight digits that have a value are the line of that byte. -/
theorem byteLine_of_binaryValue {l : List Char} {n : Nat} (h8 : l.length = 8) (h : binaryValue l 0 = some n) :
    l = byteLine (wrap8 n) := by
  obtain ⟨bits, rfl, hl⟩ := binaryValue_digits l 0 n h
  rw [h8] at hl
  have key : ∀ a b c d e f g k : Bool, (binaryValue ([a, b, c, d, e, f, g, k].map fun b => if b then '1' else '0') 0).map
      (fun n => byteLine (wrap8 n)) = some ([a, b, c, d, e, f, g, k].map fun b => if b then '1' else '0') := by decide
  match bits, hl with
  | [a, b, c, d, e, f, g, k], _ =>
    have := key a b c d e f g k
    rw [h] at this
    exact (Option.some.inj this).symm

/-! ## One line -/

/-- A line is read as `c` exactly when it holds `c` (R154). -/
theorem parseLine_eq_some_iff (line : List Char) (c : Option Byte) : parseLine line = some c ↔ LineHolds line c := by
  constructor
  · intro h
    obtain ⟨before, after, comment, hb, ha, hl⟩ := stripLine_decompose line
    unfold parseLine at h
    simp only at h
    split at h
    · rename_i he
      obtain rfl := Option.some.inj h
      rw [List.isEmpty_iff.mp he, List.append_nil] at hl
      exact ⟨before ++ after, comment, by rw [List.all_append, hb, ha]; rfl, hl⟩
    · split at h
      · rename_i h8
        obtain ⟨n, hn, rfl⟩ := Option.map_eq_some_iff.mp h
        rw [byteLine_of_binaryValue h8 hn] at hl
        exact ⟨before, after, comment, hb, ha, hl⟩
      · cases h
  · intro h
    cases c with
    | none =>
      obtain ⟨pad, comment, hp, rfl⟩ := h
      have := stripLine_of_text pad [] [] comment hp rfl (by simp) rfl rfl
      rw [List.append_nil, List.append_nil] at this
      simp [parseLine, this]
    | some v =>
      obtain ⟨before, after, comment, hb, ha, rfl⟩ := h
      have := stripLine_of_text before (byteLine v) after comment hb ha (byteLine_no_mark v) (byteLine_dropWhile v)
        (byteLine_reverse_dropWhile v)
      obtain ⟨n, hn, hv⟩ := Option.map_eq_some_iff.mp (binaryValue_byteLine v)
      unfold parseLine
      simp only [this, hn, Option.map_some, hv]
      simp [byteLine]

/-- A line that is not read holds none of the three forms (R211). -/
theorem parseLine_eq_none_iff (line : List Char) : parseLine line = none ↔ ∀ c, ¬ LineHolds line c := by
  rw [Option.eq_none_iff_forall_ne_some]
  exact forall_congr' fun c => not_congr (parseLine_eq_some_iff line c)

end Sys2Proof.Machine
end

