-- ==== Sys2Proof/Laws/Memory.lean ====
section
/-! SUPPORT. The laws of memory: reading after a write, and that every memory operation keeps the canonical form. -/

namespace Sys2Proof.Machine

@[simp] theorem Memory.read_nil (a : Nat) : Memory.read [] a = Config.memFill := rfl

theorem Memory.read_cons (k : Nat) (v : Byte) (m : Memory) (a : Nat) :
    Memory.read ((k, v) :: m) a = if k = a then v else Memory.read m a := rfl

theorem Memory.wfFrom_cons (lo k : Nat) (v : Byte) (m : Memory) :
    Memory.wfFrom lo ((k, v) :: m) = true ↔
      lo ≤ k ∧ k < Config.memSize ∧ v ≠ Config.memFill ∧ Memory.wfFrom (k + 1) m = true := by
  simp only [Memory.wfFrom, Bool.and_eq_true, decide_eq_true_eq, and_assoc]

/-- A canonical list stays canonical seen from a lower address. -/
theorem Memory.wfFrom_mono {m : Memory} {lo hi : Nat} (h : Memory.wfFrom hi m = true) (hle : lo ≤ hi) :
    Memory.wfFrom lo m = true := by
  cases m with
  | nil => rfl
  | cons c rest =>
    obtain ⟨k, v⟩ := c
    rw [Memory.wfFrom_cons] at h ⊢
    exact ⟨le_trans hle h.1, h.2⟩

/-- Below its first address a canonical list has nothing listed. -/
theorem Memory.read_of_lt {m : Memory} {lo a : Nat} (h : Memory.wfFrom lo m = true) (ha : a < lo) :
    Memory.read m a = Config.memFill := by
  induction m generalizing lo with
  | nil => rfl
  | cons c rest ih =>
    obtain ⟨k, v⟩ := c
    rw [Memory.wfFrom_cons] at h
    have hk : k ≠ a := by omega
    rw [Memory.read_cons, if_neg hk]
    exact ih h.2.2.2 (by omega)

/-- An address outside memory is never listed. -/
theorem Memory.read_of_ge {m : Memory} {lo a : Nat} (h : Memory.wfFrom lo m = true) (ha : Config.memSize ≤ a) :
    Memory.read m a = Config.memFill := by
  induction m generalizing lo with
  | nil => rfl
  | cons c rest ih =>
    obtain ⟨k, v⟩ := c
    rw [Memory.wfFrom_cons] at h
    have hk : k ≠ a := by omega
    rw [Memory.read_cons, if_neg hk]
    exact ih h.2.2.2

/-- A cell put before a list whose addresses all lie above it. -/
theorem Memory.read_put {m : Memory} {a : Nat} (v : Byte) (h : Memory.wfFrom (a + 1) m = true) (b : Nat) :
    Memory.read (Memory.put a v m) b = if b = a then v else Memory.read m b := by
  unfold Memory.put
  by_cases hv : v = Config.memFill
  · rw [if_pos hv]
    split
    · next hb => rw [hb, Memory.read_of_lt h (Nat.lt_succ_self a), hv]
    · rfl
  · rw [if_neg hv, Memory.read_cons]
    by_cases hb : a = b
    · simp [hb]
    · rw [if_neg hb, if_neg (Ne.symm hb)]

theorem Memory.wfFrom_put {m : Memory} {lo a : Nat} (v : Byte) (h : Memory.wfFrom (a + 1) m = true) (hlo : lo ≤ a)
    (ha : a < Config.memSize) : Memory.wfFrom lo (Memory.put a v m) = true := by
  unfold Memory.put
  by_cases hv : v = Config.memFill
  · rw [if_pos hv]
    exact Memory.wfFrom_mono h (by omega)
  · rw [if_neg hv, Memory.wfFrom_cons]
    exact ⟨hlo, ha, hv, h⟩

/-- A write keeps the canonical form. -/
theorem Memory.wfFrom_write {m : Memory} {lo a : Nat} (v : Byte) (h : Memory.wfFrom lo m = true) (hlo : lo ≤ a)
    (ha : a < Config.memSize) : Memory.wfFrom lo (Memory.write m a v) = true := by
  induction m generalizing lo with
  | nil => exact Memory.wfFrom_put v rfl hlo ha
  | cons c rest ih =>
    obtain ⟨k, w⟩ := c
    have hc := h
    rw [Memory.wfFrom_cons] at hc
    unfold Memory.write
    split
    · next hlt =>
      refine Memory.wfFrom_put v ?_ hlo ha
      rw [Memory.wfFrom_cons]
      exact ⟨hlt, hc.2⟩
    · next hnlt =>
      split
      · next heq => exact Memory.wfFrom_put v (heq ▸ hc.2.2.2) hlo ha
      · next hne =>
        rw [Memory.wfFrom_cons]
        exact ⟨hc.1, hc.2.1, hc.2.2.1, ih hc.2.2.2 (by omega)⟩

/-- A write keeps the canonical form of memory. -/
theorem Memory.wf_write {m : Memory} {a : Nat} (v : Byte) (h : m.wf = true) (ha : a < Config.memSize) :
    (m.write a v).wf = true := Memory.wfFrom_write v h (Nat.zero_le a) ha

/-- Bytes placed inside memory keep the canonical form. -/
theorem Memory.wf_place {m : Memory} (h : m.wf = true) (bs : List Byte) (a : Nat)
    (hb : a + bs.length ≤ Config.memSize) : (m.place a bs).wf = true := by
  induction bs generalizing m a with
  | nil => exact h
  | cons v rest ih =>
    rw [List.length_cons] at hb
    exact ih (Memory.wf_write v h (by omega)) (a + 1) (by omega)

theorem Memory.wf_nil : Memory.wf [] = true := rfl

/-- The fetch reads memory and changes nothing: in range it is the plain read, above it is the fault (R127). -/
theorem memRead_of_lt {m : Memory} {a : Nat} (h : a < Config.memSize) : memRead m a = .ok (m.read a) := if_pos h

theorem memRead_of_ge {m : Memory} {a : Nat} (h : Config.memSize ≤ a) :
    memRead m a = .error (.memAddressOutOfRange a) := if_neg (Nat.not_lt.mpr h)

/-- A fetch at 253 or below has its three bytes (R157). -/
theorem fetch_of_le {s : State} (h : s.pc.toNat ≤ 253) :
    fetch s = .ok ⟨s.mem.read s.pc.toNat, s.mem.read (s.pc.toNat + 1), s.mem.read (s.pc.toNat + 2)⟩ := by
  have hs : Config.memSize = 256 := rfl
  simp only [fetch, memRead_of_lt (show s.pc.toNat < Config.memSize by omega),
    memRead_of_lt (show s.pc.toNat + 1 < Config.memSize by omega),
    memRead_of_lt (show s.pc.toNat + 2 < Config.memSize by omega)]

/-- A fetch above 253 is the fault of the first address above 255 (R158). -/
theorem fetch_of_gt {s : State} (h : 253 < s.pc.toNat) :
    fetch s = .error (.memAddressOutOfRange (max 256 s.pc.toNat)) := by
  have hs : Config.memSize = 256 := rfl
  by_cases h0 : Config.memSize ≤ s.pc.toNat
  · rw [fetch, memRead_of_ge h0]
    simp only [Except.error.injEq, Fault.memAddressOutOfRange.injEq]
    omega
  · by_cases h1 : Config.memSize ≤ s.pc.toNat + 1
    · rw [fetch, memRead_of_lt (by omega), memRead_of_ge h1]
      simp only [Except.error.injEq, Fault.memAddressOutOfRange.injEq]
      omega
    · rw [fetch, memRead_of_lt (by omega), memRead_of_lt (by omega), memRead_of_ge (by omega)]
      simp only [Except.error.injEq, Fault.memAddressOutOfRange.injEq]
      omega

end Sys2Proof.Machine
end

