-- ==== Sys2Proof/Laws/Opcodes.lean ====
section
/-! SUPPORT. The two fields of each of the 16 opcode bytes (spec/30_encoding.md R142, R147), so that no proof unfolds
one. -/

namespace Sys2Proof

@[simp] theorem opLen_ldi : opLen Opcode.ldi = 3 := by decide
@[simp] theorem opSetsPc_ldi : opSetsPc Opcode.ldi = false := by decide
@[simp] theorem opLen_prn : opLen Opcode.prn = 2 := by decide
@[simp] theorem opSetsPc_prn : opSetsPc Opcode.prn = false := by decide
@[simp] theorem opLen_hlt : opLen Opcode.hlt = 1 := by decide
@[simp] theorem opSetsPc_hlt : opSetsPc Opcode.hlt = false := by decide
@[simp] theorem opLen_add : opLen Opcode.add = 3 := by decide
@[simp] theorem opSetsPc_add : opSetsPc Opcode.add = false := by decide
@[simp] theorem opLen_mul : opLen Opcode.mul = 3 := by decide
@[simp] theorem opSetsPc_mul : opSetsPc Opcode.mul = false := by decide
@[simp] theorem opLen_and : opLen Opcode.and = 3 := by decide
@[simp] theorem opSetsPc_and : opSetsPc Opcode.and = false := by decide
@[simp] theorem opLen_or : opLen Opcode.or = 3 := by decide
@[simp] theorem opSetsPc_or : opSetsPc Opcode.or = false := by decide
@[simp] theorem opLen_xor : opLen Opcode.xor = 3 := by decide
@[simp] theorem opSetsPc_xor : opSetsPc Opcode.xor = false := by decide
@[simp] theorem opLen_push : opLen Opcode.push = 2 := by decide
@[simp] theorem opSetsPc_push : opSetsPc Opcode.push = false := by decide
@[simp] theorem opLen_pop : opLen Opcode.pop = 2 := by decide
@[simp] theorem opSetsPc_pop : opSetsPc Opcode.pop = false := by decide
@[simp] theorem opLen_call : opLen Opcode.call = 2 := by decide
@[simp] theorem opSetsPc_call : opSetsPc Opcode.call = true := by decide
@[simp] theorem opLen_ret : opLen Opcode.ret = 1 := by decide
@[simp] theorem opSetsPc_ret : opSetsPc Opcode.ret = true := by decide
@[simp] theorem opLen_cmp : opLen Opcode.cmp = 3 := by decide
@[simp] theorem opSetsPc_cmp : opSetsPc Opcode.cmp = false := by decide
@[simp] theorem opLen_jmp : opLen Opcode.jmp = 2 := by decide
@[simp] theorem opSetsPc_jmp : opSetsPc Opcode.jmp = true := by decide
@[simp] theorem opLen_jeq : opLen Opcode.jeq = 2 := by decide
@[simp] theorem opSetsPc_jeq : opSetsPc Opcode.jeq = true := by decide
@[simp] theorem opLen_jne : opLen Opcode.jne = 2 := by decide
@[simp] theorem opSetsPc_jne : opSetsPc Opcode.jne = true := by decide

end Sys2Proof
end

