-- ==== Sys2Proof/Laws/State.lean ====
section
/-! SUPPORT. One lemma per field per update of the state, so that no proof unfolds a record update; and the laws of
reading a register after a write. -/

namespace Sys2Proof.Machine

/-! ### `setReg` -/

@[simp] theorem State.setReg_regs (s : State) (r : RegIndex) (v : Byte) : (s.setReg r v).regs = s.regs.set r v := rfl
@[simp] theorem State.setReg_pc (s : State) (r : RegIndex) (v : Byte) : (s.setReg r v).pc = s.pc := rfl
@[simp] theorem State.setReg_fl (s : State) (r : RegIndex) (v : Byte) : (s.setReg r v).fl = s.fl := rfl
@[simp] theorem State.setReg_run (s : State) (r : RegIndex) (v : Byte) : (s.setReg r v).run = s.run := rfl
@[simp] theorem State.setReg_mem (s : State) (r : RegIndex) (v : Byte) : (s.setReg r v).mem = s.mem := rfl
@[simp] theorem State.setReg_fault (s : State) (r : RegIndex) (v : Byte) : (s.setReg r v).fault = s.fault := rfl
@[simp] theorem State.setReg_out (s : State) (r : RegIndex) (v : Byte) : (s.setReg r v).out = s.out := rfl
@[simp] theorem State.setReg_load (s : State) (r : RegIndex) (v : Byte) (c : Byte) : (s.setReg r v).load c = s.load c := rfl

/-! ### `setPc` -/

@[simp] theorem State.setPc_regs (s : State) (p : PcWord) : (s.setPc p).regs = s.regs := rfl
@[simp] theorem State.setPc_pc (s : State) (p : PcWord) : (s.setPc p).pc = p := rfl
@[simp] theorem State.setPc_fl (s : State) (p : PcWord) : (s.setPc p).fl = s.fl := rfl
@[simp] theorem State.setPc_run (s : State) (p : PcWord) : (s.setPc p).run = s.run := rfl
@[simp] theorem State.setPc_mem (s : State) (p : PcWord) : (s.setPc p).mem = s.mem := rfl
@[simp] theorem State.setPc_fault (s : State) (p : PcWord) : (s.setPc p).fault = s.fault := rfl
@[simp] theorem State.setPc_out (s : State) (p : PcWord) : (s.setPc p).out = s.out := rfl
@[simp] theorem State.setPc_reg (s : State) (p : PcWord) (q : RegIndex) : (s.setPc p).reg q = s.reg q := rfl
@[simp] theorem State.setPc_load (s : State) (p : PcWord) (c : Byte) : (s.setPc p).load c = s.load c := rfl

/-! ### `setFl` -/

@[simp] theorem State.setFl_regs (s : State) (v : Byte) : (s.setFl v).regs = s.regs := rfl
@[simp] theorem State.setFl_pc (s : State) (v : Byte) : (s.setFl v).pc = s.pc := rfl
@[simp] theorem State.setFl_fl (s : State) (v : Byte) : (s.setFl v).fl = v := rfl
@[simp] theorem State.setFl_run (s : State) (v : Byte) : (s.setFl v).run = s.run := rfl
@[simp] theorem State.setFl_mem (s : State) (v : Byte) : (s.setFl v).mem = s.mem := rfl
@[simp] theorem State.setFl_fault (s : State) (v : Byte) : (s.setFl v).fault = s.fault := rfl
@[simp] theorem State.setFl_out (s : State) (v : Byte) : (s.setFl v).out = s.out := rfl
@[simp] theorem State.setFl_reg (s : State) (v : Byte) (q : RegIndex) : (s.setFl v).reg q = s.reg q := rfl
@[simp] theorem State.setFl_load (s : State) (v : Byte) (c : Byte) : (s.setFl v).load c = s.load c := rfl

/-! ### `halt` -/

@[simp] theorem State.halt_regs (s : State) : (s.halt).regs = s.regs := rfl
@[simp] theorem State.halt_pc (s : State) : (s.halt).pc = s.pc := rfl
@[simp] theorem State.halt_fl (s : State) : (s.halt).fl = s.fl := rfl
@[simp] theorem State.halt_run (s : State) : (s.halt).run = false := rfl
@[simp] theorem State.halt_mem (s : State) : (s.halt).mem = s.mem := rfl
@[simp] theorem State.halt_fault (s : State) : (s.halt).fault = s.fault := rfl
@[simp] theorem State.halt_out (s : State) : (s.halt).out = s.out := rfl
@[simp] theorem State.halt_reg (s : State) (q : RegIndex) : (s.halt).reg q = s.reg q := rfl
@[simp] theorem State.halt_load (s : State) (c : Byte) : (s.halt).load c = s.load c := rfl

/-! ### `store` -/

@[simp] theorem State.store_regs (s : State) (a v : Byte) : (s.store a v).regs = s.regs := rfl
@[simp] theorem State.store_pc (s : State) (a v : Byte) : (s.store a v).pc = s.pc := rfl
@[simp] theorem State.store_fl (s : State) (a v : Byte) : (s.store a v).fl = s.fl := rfl
@[simp] theorem State.store_run (s : State) (a v : Byte) : (s.store a v).run = s.run := rfl
@[simp] theorem State.store_mem (s : State) (a v : Byte) : (s.store a v).mem = s.mem.write a.toNat v := rfl
@[simp] theorem State.store_fault (s : State) (a v : Byte) : (s.store a v).fault = s.fault := rfl
@[simp] theorem State.store_out (s : State) (a v : Byte) : (s.store a v).out = s.out := rfl
@[simp] theorem State.store_reg (s : State) (a v : Byte) (q : RegIndex) : (s.store a v).reg q = s.reg q := rfl

/-! ### `emit` -/

@[simp] theorem State.emit_regs (s : State) (e : Event) : (s.emit e).regs = s.regs := rfl
@[simp] theorem State.emit_pc (s : State) (e : Event) : (s.emit e).pc = s.pc := rfl
@[simp] theorem State.emit_fl (s : State) (e : Event) : (s.emit e).fl = s.fl := rfl
@[simp] theorem State.emit_run (s : State) (e : Event) : (s.emit e).run = s.run := rfl
@[simp] theorem State.emit_mem (s : State) (e : Event) : (s.emit e).mem = s.mem := rfl
@[simp] theorem State.emit_fault (s : State) (e : Event) : (s.emit e).fault = s.fault := rfl
@[simp] theorem State.emit_out (s : State) (e : Event) : (s.emit e).out = s.out ++ [e] := rfl
@[simp] theorem State.emit_reg (s : State) (e : Event) (q : RegIndex) : (s.emit e).reg q = s.reg q := rfl
@[simp] theorem State.emit_load (s : State) (e : Event) (c : Byte) : (s.emit e).load c = s.load c := rfl

/-! ### `takeFault` -/

@[simp] theorem State.takeFault_regs (s : State) (f : Fault) : (s.takeFault f).regs = s.regs := rfl
@[simp] theorem State.takeFault_pc (s : State) (f : Fault) : (s.takeFault f).pc = s.pc := rfl
@[simp] theorem State.takeFault_fl (s : State) (f : Fault) : (s.takeFault f).fl = s.fl := rfl
@[simp] theorem State.takeFault_run (s : State) (f : Fault) : (s.takeFault f).run = s.run := rfl
@[simp] theorem State.takeFault_mem (s : State) (f : Fault) : (s.takeFault f).mem = s.mem := rfl
@[simp] theorem State.takeFault_fault (s : State) (f : Fault) : (s.takeFault f).fault = some f := rfl
@[simp] theorem State.takeFault_out (s : State) (f : Fault) : (s.takeFault f).out = s.out := rfl
@[simp] theorem State.takeFault_reg (s : State) (f : Fault) (q : RegIndex) : (s.takeFault f).reg q = s.reg q := rfl
@[simp] theorem State.takeFault_load (s : State) (f : Fault) (c : Byte) : (s.takeFault f).load c = s.load c := rfl

/-! ### Reading a register -/

@[simp] theorem State.reg_setReg_self (s : State) (r : RegIndex) (v : Byte) : (s.setReg r v).reg r = v := by
  simp [State.reg, State.setReg]

theorem State.reg_setReg_of_ne (s : State) {r q : RegIndex} (v : Byte) (h : q ≠ r) :
    (s.setReg r v).reg q = s.reg q := by
  have h' : r.val ≠ q.val := fun e => h (Fin.ext e.symm)
  simp [State.reg, State.setReg, h']

/-- A register read after a write of a register: the written value if it is the same register, else the old one. -/
theorem State.reg_setReg (s : State) (r q : RegIndex) (v : Byte) :
    (s.setReg r v).reg q = if q = r then v else s.reg q := by
  split
  · next h => rw [h, State.reg_setReg_self]
  · next h => exact s.reg_setReg_of_ne v h

/-- Two states with the same eight registers have the same register file. -/
theorem State.regs_ext {s t : State} (h : ∀ r, t.reg r = s.reg r) : t.regs = s.regs := by
  apply Vector.ext
  intro i hi
  exact h ⟨i, hi⟩

/-! ### The stack pointer -/

@[simp] theorem State.setSp_sp (s : State) (v : Byte) : (s.setSp v).sp = v := s.reg_setReg_self _ v

theorem State.sp_eq (s : State) : s.sp = s.reg 7 := rfl

theorem State.decSp_eq (s : State) : s.decSp = s.setReg 7 (spDec (s.reg 7)) := rfl

theorem State.incSp_eq (s : State) : s.incSp = s.setReg 7 (spInc (s.reg 7)) := rfl

theorem State.pushAddr_eq (s : State) : s.pushAddr = spDec (s.reg 7) := rfl

theorem State.stackTop_eq (s : State) : s.stackTop = s.mem.read (s.reg 7).toNat := rfl

/-- The decrement is the byte's own subtraction (R201). -/
theorem spDec_eq (v : Byte) : spDec v = v - 1 := by
  apply BitVec.eq_of_toNat_eq
  simp [spDec, wrap8, BitVec.toNat_sub]
  omega

/-- The increment is the byte's own addition (R201). -/
theorem spInc_eq (v : Byte) : spInc v = v + 1 := by
  apply BitVec.eq_of_toNat_eq
  simp [spInc, wrap8, BitVec.toNat_add]

theorem spInc_spDec (v : Byte) : spInc (spDec v) = v := by
  rw [spInc_eq, spDec_eq, BitVec.sub_add_cancel]

/-! ### The loop's PC rule -/

@[simp] theorem State.loopAdvance_regs (s : State) (op : Byte) : (s.loopAdvance op).regs = s.regs := by
  unfold State.loopAdvance; split <;> rfl
@[simp] theorem State.loopAdvance_reg (s : State) (op : Byte) (q : RegIndex) : (s.loopAdvance op).reg q = s.reg q := by
  unfold State.loopAdvance; split <;> rfl
@[simp] theorem State.loopAdvance_fl (s : State) (op : Byte) : (s.loopAdvance op).fl = s.fl := by
  unfold State.loopAdvance; split <;> rfl
@[simp] theorem State.loopAdvance_run (s : State) (op : Byte) : (s.loopAdvance op).run = s.run := by
  unfold State.loopAdvance; split <;> rfl
@[simp] theorem State.loopAdvance_mem (s : State) (op : Byte) : (s.loopAdvance op).mem = s.mem := by
  unfold State.loopAdvance; split <;> rfl
@[simp] theorem State.loopAdvance_fault (s : State) (op : Byte) : (s.loopAdvance op).fault = s.fault := by
  unfold State.loopAdvance; split <;> rfl
@[simp] theorem State.loopAdvance_out (s : State) (op : Byte) : (s.loopAdvance op).out = s.out := by
  unfold State.loopAdvance; split <;> rfl

/-- PC after the loop's step 5 (R162). -/
theorem State.loopAdvance_pc (s : State) (op : Byte) :
    (s.loopAdvance op).pc = if opSetsPc op then s.pc else pcPlus s.pc (opLen op) := by
  unfold State.loopAdvance; split <;> rfl

/-- The length of any opcode byte is 1 to 4 (R143). -/
theorem opLen_bounds (op : Byte) : 1 ≤ opLen op ∧ opLen op ≤ 4 := by
  have h : (op >>> 6).toNat ≤ 3 := by
    have := op.isLt
    simp [BitVec.toNat_ushiftRight, Nat.shiftRight_eq_div_pow]
    omega
  unfold opLen
  omega

/-- PC moved from a fetchable address does not wrap (R122c, R162). -/
theorem pcPlus_toNat {pc : PcWord} {n : Nat} (h : pc.toNat + n < 512) : (pcPlus pc n).toNat = pc.toNat + n := by
  simp [pcPlus, BitVec.toNat_add, BitVec.toNat_ofNat]
  omega

/-- A transfer target is the byte's own value (R186). -/
theorem pcOfByte_toNat (v : Byte) : (pcOfByte v).toNat = v.toNat := by
  have := v.isLt
  simp [pcOfByte]
  omega

/-- The return address of a fetchable CALL is the plain sum (R188). -/
theorem returnAddress_toNat {pc : PcWord} (h : pc.toNat ≤ 253) : (returnAddress pc).toNat = pc.toNat + 2 := by
  have h2 : (pcPlus pc 2).toNat = pc.toNat + 2 := pcPlus_toNat (by omega)
  simp [returnAddress, h2]
  omega

end Sys2Proof.Machine
end

