-- ==== Sys2Proof/Laws/Operands.lean ====
section
/-! SUPPORT. What the shared operand operations can do: an operand byte that names a register goes on, any other is the
fault with nothing else changed. The provers cite these instead of unfolding the operations. -/

namespace Sys2Proof.Machine

theorem regIndex_of_lt {a : Byte} (h : a.toNat < 8) : regIndex a = some ⟨a.toNat, h⟩ := dif_pos h

theorem regIndex_of_ge {a : Byte} (h : 7 < a.toNat) : regIndex a = none :=
  dif_neg (by simp only [Config.numRegs]; omega)

theorem withReg_of_lt {a : Byte} (h : a.toNat < 8) (s : State)
    (k : RegIndex → Host.Outcome State Fault Refusal) : withReg a s k = k ⟨a.toNat, h⟩ := by
  rw [withReg, regIndex_of_lt h]

theorem withReg_of_ge {a : Byte} (h : 7 < a.toNat) (s : State) (k : RegIndex → Host.Outcome State Fault Refusal) :
    withReg a s k = .next (s.takeFault (.regIndexOutOfRange a)) := by
  rw [withReg, regIndex_of_ge h]

/-- Everything an access to a register operand can do (R210). -/
theorem withReg_next {a : Byte} {s t : State} {k : RegIndex → Host.Outcome State Fault Refusal}
    (h : withReg a s k = .next t) :
    (∃ ha : a.toNat < 8, k ⟨a.toNat, ha⟩ = .next t) ∨
      (7 < a.toNat ∧ t = s.takeFault (.regIndexOutOfRange a)) := by
  by_cases ha : a.toNat < 8
  · exact .inl ⟨ha, by rwa [withReg_of_lt ha] at h⟩
  · have hge : 7 < a.toNat := by omega
    rw [withReg_of_ge hge] at h
    exact .inr ⟨hge, (Host.Outcome.next.inj h).symm⟩

/-- An access answers a next state when what follows it does. -/
theorem withReg_answers {a : Byte} {s : State} {k : RegIndex → Host.Outcome State Fault Refusal}
    (h : ∀ r, ∃ t, k r = .next t) : ∃ t, withReg a s k = .next t := by
  unfold withReg
  split
  · exact h _
  · exact ⟨_, rfl⟩

theorem withRegs_of_lt {a b : Byte} (ha : a.toNat < 8) (hb : b.toNat < 8) (s : State)
    (k : RegIndex → RegIndex → Host.Outcome State Fault Refusal) :
    withRegs a b s k = k ⟨a.toNat, ha⟩ ⟨b.toNat, hb⟩ := by
  rw [withRegs, withReg_of_lt ha, withReg_of_lt hb]

/-- Everything the accesses to two register operands can do: `a` is reported before `b` (R172, R213). -/
theorem withRegs_next {a b : Byte} {s t : State} {k : RegIndex → RegIndex → Host.Outcome State Fault Refusal}
    (h : withRegs a b s k = .next t) :
    (∃ (ha : a.toNat < 8) (hb : b.toNat < 8), k ⟨a.toNat, ha⟩ ⟨b.toNat, hb⟩ = .next t) ∨
      (7 < a.toNat ∧ t = s.takeFault (.regIndexOutOfRange a)) ∨
      (a.toNat < 8 ∧ 7 < b.toNat ∧ t = s.takeFault (.regIndexOutOfRange b)) := by
  rcases withReg_next h with ⟨ha, h1⟩ | h1
  · rcases withReg_next h1 with ⟨hb, h2⟩ | h2
    · exact .inl ⟨ha, hb, h2⟩
    · exact .inr (.inr ⟨ha, h2⟩)
  · exact .inr (.inl h1)

/-- An ALU instruction on registers in range is its write-back of what the ALU yields (R172). -/
theorem execAlu_of_lt {a b : Byte} (ha : a.toNat < 8) (hb : b.toNat < 8) (op : Byte) (tag : AluTag) (s : State) :
    execAlu op tag a b s =
      aluWriteBack op tag ⟨a.toNat, ha⟩ s (alu tag (s.reg ⟨a.toNat, ha⟩) (s.reg ⟨b.toNat, hb⟩)) :=
  withRegs_of_lt ha hb s _

/-- The six tags the decoder drives never meet the unsupported condition (R181). -/
theorem alu_supported {tag : AluTag} (h : tag.toNat ≤ 5) (va vb : Byte) : alu tag va vb ≠ .unsupported := by
  intro hc
  have hlt : tag.toNat = 0 ∨ tag.toNat = 1 ∨ tag.toNat = 2 ∨ tag.toNat = 3 ∨ tag.toNat = 4 ∨ tag.toNat = 5 := by omega
  have htag : tag = 0 ∨ tag = 1 ∨ tag = 2 ∨ tag = 3 ∨ tag = 4 ∨ tag = 5 := by
    simpa [← BitVec.toNat_inj] using hlt
  rcases htag with rfl | rfl | rfl | rfl | rfl | rfl <;> cases hc

/-- Everything an ALU instruction with one of the six tags can do (R172). -/
theorem execAlu_next {op a b : Byte} {tag : AluTag} {s t : State} (htag : tag.toNat ≤ 5)
    (h : execAlu op tag a b s = .next t) :
    (∃ (ha : a.toNat < 8) (v : Byte), b.toNat < 8 ∧ t = (s.setReg ⟨a.toNat, ha⟩ v).loopAdvance op) ∨
      (∃ fl : Byte, a.toNat < 8 ∧ b.toNat < 8 ∧ t = (s.setFl fl).loopAdvance op) ∨
      (7 < a.toNat ∧ t = s.takeFault (.regIndexOutOfRange a)) ∨
      (a.toNat < 8 ∧ 7 < b.toNat ∧ t = s.takeFault (.regIndexOutOfRange b)) := by
  rcases withRegs_next h with ⟨ha, hb, h1⟩ | h1 | h1
  · cases hout : alu tag (s.reg ⟨a.toNat, ha⟩) (s.reg ⟨b.toNat, hb⟩) with
    | result v =>
      rw [hout] at h1
      exact .inl ⟨ha, v, hb, (Host.Outcome.next.inj h1).symm⟩
    | flags fl =>
      rw [hout] at h1
      exact .inr (.inl ⟨fl, ha, hb, (Host.Outcome.next.inj h1).symm⟩)
    | unsupported => exact absurd hout (alu_supported htag _ _)
  · exact .inr (.inr (.inl h1))
  · exact .inr (.inr (.inr h1))

/-- Everything a conditional branch can do (R191, R192). -/
theorem branchIf_next {taken : Bool} {op a : Byte} {s t : State} (h : branchIf taken op a s = .next t) :
    (taken = true ∧ ∃ ha : a.toNat < 8, t = s.setPc (pcOfByte (s.reg ⟨a.toNat, ha⟩))) ∨
      (taken = true ∧ 7 < a.toNat ∧ t = s.takeFault (.regIndexOutOfRange a)) ∨
      (taken = false ∧ t = s.setPc (pcPlus s.pc (opLen op))) := by
  cases taken with
  | true =>
    rcases withReg_next h with ⟨ha, h1⟩ | h1
    · exact .inl ⟨rfl, ha, (Host.Outcome.next.inj h1).symm⟩
    · exact .inr (.inl ⟨rfl, h1⟩)
  | false => exact .inr (.inr ⟨rfl, (Host.Outcome.next.inj h).symm⟩)

end Sys2Proof.Machine
end

