-- ==== Sys2Proof/Laws/PerInstr.lean ====
section
/-! SUPPORT. Per-instruction families of statements about the syntax: the fields of the opcode byte tell the length of
the encoding and which instructions write PC themselves (spec/30_encoding.md R142, R143). -/

namespace Sys2Proof.Laws

/-- CALL, RET, JMP, JEQ and JNE (R142, R225). -/
def transfersControl : Instr → Bool
  | .ldi _ _ => false
  | .prn _ => false
  | .hlt => false
  | .add _ _ => false
  | .mul _ _ => false
  | .and _ _ => false
  | .or _ _ => false
  | .xor _ _ => false
  | .push _ => false
  | .pop _ => false
  | .call _ => true
  | .ret => true
  | .cmp _ _ => false
  | .jmp _ => true
  | .jeq _ => true
  | .jne _ => true

/-- Bits 7:6 of the opcode byte give the encoding's length, bit 4 says whether the instruction writes PC. -/
def OpcodeFields.Statement (i : Instr) : Prop :=
  (encode i).length = opLen (opcodeOf i) ∧ opSetsPc (opcodeOf i) = transfersControl i

theorem OpcodeFields.ldi (a imm : Byte) : OpcodeFields.Statement (.ldi a imm) := ⟨opLen_ldi.symm, opSetsPc_ldi⟩
theorem OpcodeFields.prn (a : Byte) : OpcodeFields.Statement (.prn a) := ⟨opLen_prn.symm, opSetsPc_prn⟩
theorem OpcodeFields.hlt : OpcodeFields.Statement .hlt := ⟨opLen_hlt.symm, opSetsPc_hlt⟩
theorem OpcodeFields.add (a b : Byte) : OpcodeFields.Statement (.add a b) := ⟨opLen_add.symm, opSetsPc_add⟩
theorem OpcodeFields.mul (a b : Byte) : OpcodeFields.Statement (.mul a b) := ⟨opLen_mul.symm, opSetsPc_mul⟩
theorem OpcodeFields.and (a b : Byte) : OpcodeFields.Statement (.and a b) := ⟨opLen_and.symm, opSetsPc_and⟩
theorem OpcodeFields.or (a b : Byte) : OpcodeFields.Statement (.or a b) := ⟨opLen_or.symm, opSetsPc_or⟩
theorem OpcodeFields.xor (a b : Byte) : OpcodeFields.Statement (.xor a b) := ⟨opLen_xor.symm, opSetsPc_xor⟩
theorem OpcodeFields.push (a : Byte) : OpcodeFields.Statement (.push a) := ⟨opLen_push.symm, opSetsPc_push⟩
theorem OpcodeFields.pop (a : Byte) : OpcodeFields.Statement (.pop a) := ⟨opLen_pop.symm, opSetsPc_pop⟩
theorem OpcodeFields.call (a : Byte) : OpcodeFields.Statement (.call a) := ⟨opLen_call.symm, opSetsPc_call⟩
theorem OpcodeFields.ret : OpcodeFields.Statement .ret := ⟨opLen_ret.symm, opSetsPc_ret⟩
theorem OpcodeFields.cmp (a b : Byte) : OpcodeFields.Statement (.cmp a b) := ⟨opLen_cmp.symm, opSetsPc_cmp⟩
theorem OpcodeFields.jmp (a : Byte) : OpcodeFields.Statement (.jmp a) := ⟨opLen_jmp.symm, opSetsPc_jmp⟩
theorem OpcodeFields.jeq (a : Byte) : OpcodeFields.Statement (.jeq a) := ⟨opLen_jeq.symm, opSetsPc_jeq⟩
theorem OpcodeFields.jne (a : Byte) : OpcodeFields.Statement (.jne a) := ⟨opLen_jne.symm, opSetsPc_jne⟩

end Sys2Proof.Laws
end

