-- ==== Sys2Proof/Laws/Step.lean ====
section
/-! SUPPORT. What one step can do, said once. -/

namespace Sys2Proof.Machine

theorem State.stopped_eq_false_iff (s : State) : s.stopped = false ↔ s.Running := by
  simp [State.stopped, State.Running]

theorem State.stopped_eq_true_iff (s : State) : s.stopped = true ↔ s.run = false ∨ s.fault ≠ none := by
  simp [State.stopped, Option.isSome_iff_ne_none]

/-- Everything a step can do (R155, R158, R163): a stopped machine keeps its state; a running one faults on the fetch,
runs the instruction it has decoded, or reports an unknown opcode. -/
theorem step_cases {s t : State} (h : step s = .next t) :
    (s.stopped = true ∧ t = s) ∨
    (s.Running ∧ 253 < s.pc.toNat ∧ t = s.takeFault (.memAddressOutOfRange (max 256 s.pc.toNat))) ∨
    (s.Running ∧ s.CanFetch ∧
      ∃ i, decode (s.byteAt 0) (s.byteAt 1) (s.byteAt 2) = .ok i ∧ exec i s = .next t) ∨
    (s.Running ∧ s.CanFetch ∧ (∃ r, decode (s.byteAt 0) (s.byteAt 1) (s.byteAt 2) = .error r) ∧
      t = s.reportInvalid (s.byteAt 0)) := by
  by_cases hs : s.stopped = true
  · rw [step, if_pos hs] at h
    exact .inl ⟨hs, (Host.Outcome.next.inj h).symm⟩
  · have hrun : s.Running := (s.stopped_eq_false_iff).mp (by simpa using hs)
    rw [step, if_neg hs] at h
    by_cases hpc : s.pc.toNat ≤ 253
    · rw [fetch_of_le hpc] at h
      change (match decode (s.byteAt 0) (s.byteAt 1) (s.byteAt 2) with
        | .ok i => exec i s
        | .error _ => .next (s.reportInvalid (s.byteAt 0))) = .next t at h
      cases hd : decode (s.byteAt 0) (s.byteAt 1) (s.byteAt 2) with
      | ok i =>
        rw [hd] at h
        exact .inr (.inr (.inl ⟨hrun, hpc, i, rfl, h⟩))
      | error r =>
        rw [hd] at h
        exact .inr (.inr (.inr ⟨hrun, hpc, ⟨r, rfl⟩, (Host.Outcome.next.inj h).symm⟩))
    · rw [fetch_of_gt (by omega)] at h
      exact .inr (.inl ⟨hrun, by omega, (Host.Outcome.next.inj h).symm⟩)

/-- A run of no steps. -/
theorem run_core_zero (s : State) : Host.Core.run Sys2Proof.core 0 s = .next s := rfl

/-- A run of one step more, when the first step answers a next state. -/
theorem run_core_succ {s t : State} (n : Nat) (h : step s = .next t) :
    Host.Core.run Sys2Proof.core (n + 1) s = Host.Core.run Sys2Proof.core n t := by
  have h' : Sys2Proof.core.step s = .next t := h
  simp only [Host.Core.run, h']

end Sys2Proof.Machine
end

