-- ==== Sys2Proof/Tests/Slice0.lean ====
section
/-! SUPPORT. The model's own tests. Expected results come from spec/95_test_vectors.md (its section is named with each
test) or from the encodings of spec/30_encoding.md R147; the witnesses show states and operands that meet the hypotheses of
the statements. -/

namespace Sys2Proof.Tests

open Sys2Proof.Machine

/-! ## Helpers -/

/-- The reset state with PC at `pc` and `bytes` in memory from there on. -/
def stateAt (pc : PcWord) (bytes : List Byte) : State :=
  { State.reset with pc := pc, mem := Memory.place [] pc.toNat bytes }

/-- The state with one more memory byte. -/
def poke (s : State) (a v : Byte) : State := s.store a v

/-- The outcome is a next state that satisfies `p`. -/
def answers (o : Host.Outcome State Fault Refusal) (p : State → Bool) : Bool :=
  match o with
  | .next t => p t
  | .fault _ => false
  | .refused _ => false

/-- One step from `s` answers a next state that satisfies `p`. -/
def steps (s : State) (p : State → Bool) : Bool := answers (step s) p

/-- `t` is `s` with that fault and nothing else changed. -/
def faultsAs (s : State) (f : Fault) (t : State) : Bool := decide (t = { s with fault := some f })

/-! ## Well-formedness: an ill-formed term for each check -/

theorem test_wellformed_refuses_first_operand :
    [Instr.ldi 8 0, .prn 8, .add 8 0, .mul 8 0, .and 8 0, .or 8 0, .xor 8 0, .push 8, .pop 8, .call 8, .cmp 8 0,
     .jmp 8, .jeq 8, .jne 255].all (fun i => !i.wellFormed) = true := by decide

theorem test_wellformed_refuses_second_operand :
    [Instr.add 0 8, .mul 0 8, .and 0 8, .or 0 8, .xor 0 8, .cmp 0 255].all (fun i => !i.wellFormed) = true := by decide

theorem test_wellformed_accepts :
    [Instr.ldi 7 200, .prn 7, .hlt, .add 7 7, .push 7, .ret, .jne 0].all Instr.wellFormed = true := by decide

/-! ## Decoding: a word of each instruction written out from R147 -/

/-- R169. -/
theorem test_decode_ldi : decode 0b10000010 0x00 0x08 = .ok (.ldi 0 8) ∧ encode (.ldi 0 8) = [0b10000010, 0x00, 0x08] := ⟨rfl, rfl⟩
/-- R170. -/
theorem test_decode_prn : decode 0b01000111 0x07 0xFF = .ok (.prn 7) ∧ encode (.prn 7) = [0b01000111, 0x07] := ⟨rfl, rfl⟩
/-- R171. -/
theorem test_decode_hlt : decode 0b00000001 0xFF 0xFF = .ok (.hlt) ∧ encode (.hlt) = [0b00000001] := ⟨rfl, rfl⟩
/-- R175. -/
theorem test_decode_add : decode 0b10100000 0x00 0x01 = .ok (.add 0 1) ∧ encode (.add 0 1) = [0b10100000, 0x00, 0x01] := ⟨rfl, rfl⟩
/-- R176. -/
theorem test_decode_mul : decode 0b10100010 0x02 0x03 = .ok (.mul 2 3) ∧ encode (.mul 2 3) = [0b10100010, 0x02, 0x03] := ⟨rfl, rfl⟩
/-- R177. -/
theorem test_decode_and : decode 0b10101000 0x04 0x05 = .ok (.and 4 5) ∧ encode (.and 4 5) = [0b10101000, 0x04, 0x05] := ⟨rfl, rfl⟩
/-- R178. -/
theorem test_decode_or : decode 0b10101010 0x06 0x07 = .ok (.or 6 7) ∧ encode (.or 6 7) = [0b10101010, 0x06, 0x07] := ⟨rfl, rfl⟩
/-- R179. -/
theorem test_decode_xor : decode 0b10101011 0x09 0x0A = .ok (.xor 9 10) ∧ encode (.xor 9 10) = [0b10101011, 0x09, 0x0A] := ⟨rfl, rfl⟩
/-- R184. -/
theorem test_decode_push : decode 0b01000101 0x03 0x00 = .ok (.push 3) ∧ encode (.push 3) = [0b01000101, 0x03] := ⟨rfl, rfl⟩
/-- R185. -/
theorem test_decode_pop : decode 0b01000110 0x04 0x00 = .ok (.pop 4) ∧ encode (.pop 4) = [0b01000110, 0x04] := ⟨rfl, rfl⟩
/-- R188. -/
theorem test_decode_call : decode 0b01010000 0x01 0x00 = .ok (.call 1) ∧ encode (.call 1) = [0b01010000, 0x01] := ⟨rfl, rfl⟩
/-- R189. -/
theorem test_decode_ret : decode 0b00010001 0x00 0x00 = .ok (.ret) ∧ encode (.ret) = [0b00010001] := ⟨rfl, rfl⟩
/-- R180. -/
theorem test_decode_cmp : decode 0b10100111 0x01 0x00 = .ok (.cmp 1 0) ∧ encode (.cmp 1 0) = [0b10100111, 0x01, 0x00] := ⟨rfl, rfl⟩
/-- R190. -/
theorem test_decode_jmp : decode 0b01010100 0x02 0x00 = .ok (.jmp 2) ∧ encode (.jmp 2) = [0b01010100, 0x02] := ⟨rfl, rfl⟩
/-- R191. -/
theorem test_decode_jeq : decode 0b01010101 0x02 0x00 = .ok (.jeq 2) ∧ encode (.jeq 2) = [0b01010101, 0x02] := ⟨rfl, rfl⟩
/-- R192. -/
theorem test_decode_jne : decode 0b01010110 0x04 0x00 = .ok (.jne 4) ∧ encode (.jne 4) = [0b01010110, 0x04] := ⟨rfl, rfl⟩

/-- 2.1: bytes next to defined opcodes are unknown, with their length and bit 4. -/
theorem test_decode_unknown :
    [(0x00, 1, false), (0x02, 1, false), (0x10, 1, true), (0x40, 2, false), (0x57, 2, true), (0x83, 3, false),
     (0xA1, 3, false), (0xB0, 3, true), (0xC2, 4, false), (0xFF, 4, true)].all
      (fun (r : Byte × Nat × Bool) => !isOpcodeByte r.1 && opLen r.1 == r.2.1 && opSetsPc r.1 == r.2.2) = true := by
  decide

/-- R150, C11: how many unknown bytes there are, and how many of them hang the machine. -/
theorem test_unknown_counts :
    ((List.range 256).countP fun n => !isOpcodeByte (BitVec.ofNat 8 n)) = 240 ∧
    ((List.range 256).countP fun n => !isOpcodeByte (BitVec.ofNat 8 n) && opSetsPc (BitVec.ofNat 8 n)) = 123 := by
  decide +kernel

/-- A byte string that ends too early, or does not begin with an opcode, is rejected by name. -/
theorem test_decode_rejects :
    decodeBytes [0x82, 0x00] = .error .truncated ∧ decodeBytes [] = .error .truncated ∧
    decodeBytes [0x00, 0x01] = .error (.unknownOpcode 0x00) ∧ decodeBytes [0x01] = .ok (.hlt, []) :=
  ⟨rfl, rfl, rfl, rfl⟩

theorem test_decodeTableWord : decodeTableWord 8 0x82 = some (.ldi 0 0) ∧ decodeTableWord 24 0x080082 = some (.ldi 0 8) ∧
    decodeTableWord 8 0x00 = none := ⟨rfl, rfl, rfl⟩

/-- R153: the document's own assembly line. -/
theorem test_assembly : (Instr.ldi 0 8).assembly = "LDI R0,8" ∧ (Instr.mul 0 1).assembly = "MUL R0,R1" ∧
    Instr.hlt.assembly = "HLT" := by decide

/-! ## One step each (spec/95_test_vectors.md) -/

/-- 2.3: the immediate is not a register index, and R7 is the stack pointer. -/
theorem test_ldi : steps (stateAt 0 [0x82, 0x07, 0x20]) (fun t => t.sp == 0x20 && t.pc == 3 && t.fl == 0) = true := by decide

/-- 2.3. -/
theorem test_ldi_fault :
    steps (stateAt 0 [0x82, 0x08, 0x01]) (faultsAs (stateAt 0 [0x82, 0x08, 0x01]) (.regIndexOutOfRange 8)) = true := by decide

/-- 2.3. -/
theorem test_prn : steps (stateAt 0 [0x47, 0x07]) (fun t => t.out == [.print 244] && t.pc == 2) = true := by decide

/-- 2.3. -/
theorem test_hlt : steps (stateAt 0 [0x01, 0xFF, 0xFF]) (fun t => !t.run && t.pc == 1 && t.out == [] && t.fault == none) = true := by
  decide

/-- 2.4: the overflow of 255 + 1 leaves FL alone. -/
theorem test_add : steps ((((stateAt 0 [0xA0, 0, 1]).setReg 0 255).setReg 1 1).setFl 2)
    (fun t => t.reg 0 == 0 && t.reg 1 == 1 && t.fl == 2 && t.pc == 3) = true := by decide

/-- 2.4: `a` is reported before `b`. -/
theorem test_add_fault :
    steps (stateAt 0 [0xA0, 9, 10]) (faultsAs (stateAt 0 [0xA0, 9, 10]) (.regIndexOutOfRange 9)) = true := by decide

/-- 2.4: 200 * 100. -/
theorem test_mul : steps (((stateAt 0 [0xA2, 0, 1]).setReg 0 200).setReg 1 100) (fun t => t.reg 0 == 32 && t.reg 1 == 100) = true := by
  decide

/-- 2.4: 0xCC and 0xAA. -/
theorem test_and : steps (((stateAt 0 [0xA8, 0, 1]).setReg 0 0xCC).setReg 1 0xAA) (fun t => t.reg 0 == 0x88) = true := by decide

/-- 2.4: 0xCC and 0xAA. -/
theorem test_or : steps (((stateAt 0 [0xAA, 0, 1]).setReg 0 0xCC).setReg 1 0xAA) (fun t => t.reg 0 == 0xEE) = true := by decide

/-- 2.4: 0xCC and 0xAA; and XOR of a register with itself. -/
theorem test_xor : steps (((stateAt 0 [0xAB, 0, 1]).setReg 0 0xCC).setReg 1 0xAA) (fun t => t.reg 0 == 0x66) = true ∧
    steps ((stateAt 0 [0xAB, 0, 0]).setReg 0 200) (fun t => t.reg 0 == 0) = true := by decide

/-- 2.4: the comparison is unsigned (127 < 128). -/
theorem test_cmp_less : steps (((stateAt 0 [0xA7, 0, 1]).setReg 0 127).setReg 1 128) (fun t => t.fl == 4 && t.reg 0 == 127) = true := by
  decide

/-- 2.4: 255 > 1, and 4 = 4 overwrites an earlier G. -/
theorem test_cmp_greater_equal :
    steps (((stateAt 0 [0xA7, 0, 1]).setReg 0 255).setReg 1 1) (fun t => t.fl == 2) = true ∧
    steps ((((stateAt 0 [0xA7, 0, 1]).setReg 0 4).setReg 1 4).setFl 2) (fun t => t.fl == 1) = true := by decide

/-- 2.5: PUSH wraps SP, and PUSH R7 stores the decremented pointer. -/
theorem test_push : steps (((stateAt 0 [0x45, 0]).setSp 0).setReg 0 0xAB) (fun t => t.sp == 0xFF && t.mem.read 0xFF == 0xAB) = true ∧
    steps (stateAt 0 [0x45, 7]) (fun t => t.sp == 0xF3 && t.mem.read 0xF3 == 0xF3 && t.pc == 2) = true := by decide

/-- 2.5: the PUSH overwrites its own operand byte and still pushes R0. -/
theorem test_push_over_itself : steps (((stateAt 0 [0x45, 0]).setSp 2).setReg 0 0x99)
    (fun t => t.sp == 1 && t.mem.read 1 == 0x99 && t.mem.read 0 == 0x45 && t.pc == 2) = true := by decide

/-- 2.5: POP wraps SP. -/
theorem test_pop : steps (poke ((stateAt 0 [0x46, 0]).setSp 0xFF) 0xFF 0x77)
    (fun t => t.reg 0 == 0x77 && t.sp == 0 && t.mem.read 0xFF == 0x77) = true := by decide

/-- 2.5: POP R7 increments the loaded value. -/
theorem test_pop_r7 : steps (poke (stateAt 0 [0x46, 7]) 0xF4 0x20) (fun t => t.sp == 0x21 && t.pc == 2) = true := by decide

/-- 2.6: the largest return address. -/
theorem test_call : steps ((stateAt 253 [0x50, 0]).setReg 0 0) (fun t => t.sp == 0xF3 && t.mem.read 0xF3 == 255 && t.pc == 0) = true := by
  decide

/-- 2.6: CALL R7 jumps to the decremented pointer. -/
theorem test_call_r7 : steps (stateAt 0 [0x50, 7]) (fun t => t.sp == 0xF3 && t.mem.read 0xF3 == 2 && t.pc == 0xF3) = true := by
  decide

/-- 2.6. -/
theorem test_ret : steps (poke ((stateAt 21 [0x11]).setSp 0xFF) 0xFF 0x10) (fun t => t.pc == 0x10 && t.sp == 0) = true := by decide

/-- 2.6: a jump to 254 is accepted. -/
theorem test_jmp : steps ((stateAt 0 [0x54, 0]).setReg 0 254) (fun t => t.pc == 254 && t.fault == none) = true := by decide

/-- 2.6: taken; and not taken, with an operand that is not checked. -/
theorem test_jeq : steps (((stateAt 12 [0x55, 2]).setReg 2 0x30).setFl 1) (fun t => t.pc == 0x30) = true ∧
    steps (stateAt 0 [0x55, 9]) (fun t => t.pc == 2 && t.fault == none) = true := by decide

/-- 2.6: taken on FL = 0x00; a taken JNE checks its operand. -/
theorem test_jne : steps ((stateAt 24 [0x56, 4]).setReg 4 15) (fun t => t.pc == 15) = true ∧
    steps (stateAt 0 [0x56, 9]) (faultsAs (stateAt 0 [0x56, 9]) (.regIndexOutOfRange 9)) = true := by decide

/-- 2.2: unknown opcodes of length 4 and with bit 4 set. -/
theorem test_unknown : steps (stateAt 0 [0xC2]) (fun t => t.out == [.invalid 0xC2 0] && t.pc == 4 && t.run) = true ∧
    steps (stateAt 0 [0x10]) (fun t => t.out == [.invalid 0x10 0] && t.pc == 0 && t.fault == none) = true := by decide

/-- 3: HLT halts at 253 and faults at 254. -/
theorem test_top_of_memory : steps (stateAt 253 [0x01]) (fun t => !t.run && t.pc == 254) = true ∧
    steps (stateAt 254 [0x01]) (faultsAs (stateAt 254 [0x01]) (.memAddressOutOfRange 256)) = true := by decide

/-- 3: the addresses a fetch fault reports; the largest PC. -/
theorem test_fetch_fault_address :
    steps (stateAt 255 []) (faultsAs (stateAt 255 []) (.memAddressOutOfRange 256)) = true ∧
    steps (stateAt 257 []) (faultsAs (stateAt 257 []) (.memAddressOutOfRange 257)) = true ∧
    steps (stateAt 253 [0xC2]) (fun t => t.pc == 257 && t.out == [.invalid 0xC2 253]) = true := by decide

/-- 3: after a faulting row a further step changes nothing, and reset gives the reset state with memory as it stood. -/
theorem test_stopped_and_reset :
    steps ((stateAt 254 [0x01]).takeFault (.memAddressOutOfRange 256))
      (fun t => t == (stateAt 254 [0x01]).takeFault (.memAddressOutOfRange 256)) = true ∧
    ((stateAt 254 [0x01]).takeFault (.memAddressOutOfRange 256)).hostReset = { State.reset with mem := [(254, 0x01)] } := by
  decide

/-- 2.6: `pc_mux` as a function. -/
theorem test_pc_mux : pcNext .seq 253 4 0x30 0x08 true = 257 ∧ pcNext .mem 12 1 0x30 0x08 true = 0x08 ∧
    pcNext .ne 12 2 0x30 0x08 true = 14 ∧ pcNext .eq 12 2 0x30 0x08 true = 0x30 ∧ pcTaken .ne false = true ∧
    pcTaken .mem true = false := by decide

/-- 2.5: `stack_pointer` as a function. -/
theorem test_stack_pointer : spNext .dec 0 = 0xFF ∧ stackAddr .dec 0 = 0xFF ∧ spNext .inc 0xFF = 0 ∧ stackAddr .inc 0xFF = 0xFF := by
  decide

/-- 2.4, last row: the ALU alone, with an unused tag. -/
theorem test_alu_unused_tag : alu 6 1 2 = .unsupported ∧ alu 7 1 2 = .unsupported := by decide

/-- R214: the port codes. -/
theorem test_fault_codes : (Fault.unsupportedAluOp 6).kindCode = 1 ∧ (Fault.memAddressOutOfRange 257).kindCode = 2 ∧
    (Fault.memAddressOutOfRange 257).infoCode = 257 ∧ (Fault.regIndexOutOfRange 9).kindCode = 3 ∧
    (Fault.regIndexOutOfRange 9).infoCode = 9 := by decide

/-- R154: the example's lines, a blank line and a comment; and a line that is none of the three (R211). -/
theorem test_loader : parseLines 1 ["10000010 # LDI R0,8".toList, "".toList, "# text".toList, "00001000".toList] = .ok [0x82, 8] ∧
    parseLines 1 ["00000001".toList, "0101".toList] = .error (.badLine 2) := ⟨by rfl, by rfl⟩

/-- R220: the trace shows the next three bytes, none above 255. -/
theorem test_trace : (stateAt 254 [0x01]).trace.next = [some 0x01, some 0x00, none] := by decide

/-- The placed fetch word runs as the first instruction after reset. -/
theorem test_withFetchWord : steps (State.reset.withFetchWord 24 0x090082) (fun t => t.reg 0 == 9 && t.pc == 3) = true := by decide

/-! ## Witnesses: the hypotheses of each statement are met together -/

/-- BootPlacesTheProgram: both clauses, at the boundary. -/
theorem witness_boot : (List.replicate 256 (1 : Byte)).length ≤ 256 ∧ 256 < (List.replicate 257 (1 : Byte)).length :=
  ⟨List.length_replicate.le, List.length_replicate.ge⟩

/-- ResetMeetsTheInvariant, and MemoryReadsTheLatestWrite at the last address with a neighbour. -/
theorem witness_memory : Memory.wf [(0, 0x82), (255, 1)] = true ∧ 255 < 256 ∧ 254 < 256 ∧ 254 ≠ 255 := by decide

/-- A program and the image it gives: zeros are not listed (R222). -/
theorem test_boot_image : boot [0x82, 0, 8] = some (State.resetWith [(0, 0x82), (2, 8)]) := by decide

/-- CanonicalMemoriesThatReadAlikeAreEqual. -/
theorem witness_canonical : Memory.wf [(3, 1)] = true ∧ ∀ a, a < 256 → Memory.read [(3, 1)] a = Memory.read [(3, 1)] a :=
  ⟨by decide, fun _ _ => rfl⟩

/-- A mixed text in R154's form: a byte with a comment, a blank line, a comment line, a byte without a comment. -/
def mixedText : List (List Char × Option Byte) :=
  [("10000010 # LDI R0,8".toList, some 0x82), ("".toList, none), ("# text".toList, none), ("00001000".toList, some 8)]

/-- LoaderReadsBackWrittenBytes and LoadingATextBootsItsBytes: the mixed text, a line of §7's wording that is none of the three
(C9), and both sides of 256 bytes. -/
theorem witness_text : (∀ p ∈ mixedText, LineHolds p.1 p.2) ∧ (∀ c, ¬ LineHolds "0101".toList c) ∧
    (mixedText.filterMap Prod.snd).length ≤ 256 ∧
    (∀ p ∈ List.replicate 257 (byteLine 1, some (1 : Byte)), LineHolds p.1 p.2) ∧
    256 < ((List.replicate 257 (byteLine 1, some (1 : Byte))).filterMap Prod.snd).length := by
  refine ⟨?_, (parseLine_eq_none_iff _).mp (by rfl), by decide, ?_, ?_⟩
  · have h : ∀ p ∈ mixedText, parseLine p.1 = some p.2 := by decide
    exact fun p hp => (parseLine_eq_some_iff _ _).mp (h p hp)
  · intro p hp
    obtain rfl := List.eq_of_mem_replicate hp
    exact (parseLine_eq_some_iff _ _).mp (by rfl)
  · have h := List.filterMap_replicate_of_some (f := Prod.snd) (n := 257) (a := (byteLine 1, some (1 : Byte))) rfl
    rw [h, List.length_replicate]; decide

/-- DecodingIsByExactMatch and EncodeReadsBackDecode. -/
theorem witness_decoded : decode 0x45 3 9 = .ok (.push 3) := rfl

/-- StepRunsTheDecodedInstruction at the last address an instruction can run from. -/
theorem witness_step : (stateAt 253 [0x82, 1, 7]).Running ∧ (stateAt 253 [0x82, 1, 7]).CanFetch ∧
    decode ((stateAt 253 [0x82, 1, 7]).byteAt 0) ((stateAt 253 [0x82, 1, 7]).byteAt 1) ((stateAt 253 [0x82, 1, 7]).byteAt 2) =
      .ok (.ldi 1 7) := ⟨by decide, by decide, rfl⟩

/-- StepRunsTheEncodedInstruction. -/
theorem witness_encoded : (stateAt 253 [0x01]).Running ∧ (stateAt 253 [0x01]).CanFetch ∧
    ∀ k v, (encode .hlt)[k]? = some v → (stateAt 253 [0x01]).byteAt k = v := by
  refine ⟨by decide, by decide, fun k v h => ?_⟩
  match k, h with
  | 0, h => cases h; rfl

/-- PlacedFetchWordRuns. -/
theorem witness_fetchWord : State.reset.Running ∧ State.reset.CanFetch ∧ State.reset.mem.wf = true ∧
    decodeTableWord 8 0x54 = some (.jmp 0) := by decide

/-- UnknownOpcodeIsReportedAndSkipped, bit 4 clear; UnknownOpcodeWithBitFourHangs, bit 4 set. -/
theorem witness_unknown : (stateAt 253 [0xC2]).Running ∧ (stateAt 253 [0xC2]).CanFetch ∧
    isOpcodeByte ((stateAt 253 [0xC2]).byteAt 0) = false ∧ (stateAt 0 [0xFF]).Running ∧ (stateAt 0 [0xFF]).CanFetch ∧
    isOpcodeByte ((stateAt 0 [0xFF]).byteAt 0) = false ∧ ((stateAt 0 [0xFF]).byteAt 0).getLsbD 4 = true := by decide

/-- FetchAboveTheTopFaults, below and above 256. -/
theorem witness_above : (stateAt 254 []).Running ∧ 253 < (stateAt 254 []).pc.toNat ∧ (stateAt 256 []).Running ∧
    253 < (stateAt 256 []).pc.toNat := by decide

/-- StoppedMachineNeverChanges, both ways of being stopped. -/
theorem witness_stopped : State.reset.halt.run = false ∧ (State.reset.takeFault (.regIndexOutOfRange 8)).fault ≠ none := by
  decide

/-- PcAfterACompletedStep: every opcode of the table completes from a running state, and
so does an unknown one of either kind. -/
theorem witness_completed :
    [0x82, 0xA0, 0xA2, 0xA8, 0xAA, 0xAB, 0xA7, 0x47, 0x45, 0x46, 0x01, 0x50, 0x54, 0x11, 0x55, 0x56, 0xC2, 0x10].all
      (fun op => decide ((stateAt 253 [op, 0, 0]).Running ∧ (stateAt 253 [op, 0, 0]).CanFetch) &&
        steps (stateAt 253 [op, 0, 0]) (fun t => t.fault == none) &&
        steps ((stateAt 253 [op, 0, 0]).setFl 1) (fun t => t.fault == none)) = true := by decide

/-- FaultEntryChangesNothingElse and StepFaultsExactlyOn: a fetch fault and a register fault. -/
theorem witness_fault : (stateAt 254 []).fault = none ∧ steps (stateAt 254 []) (fun t => t.fault == some (.memAddressOutOfRange 256)) = true ∧
    (stateAt 253 [0xA0, 7, 8]).Running ∧
    steps (stateAt 253 [0xA0, 7, 8]) (fun t => t.fault == some (.regIndexOutOfRange 8)) = true := by decide

/-- RegisterIndexOutOfRangeFaults and InstructionInRangeCompletes: the boundary operands 7 and 8, and the unchecked operand of
a branch that is not taken. -/
theorem witness_operands : (Instr.add 8 9).badOperand false = some 8 ∧ (Instr.add 7 8).badOperand false = some 8 ∧
    (Instr.add 7 7).badOperand false = none ∧ (Instr.jeq 255).badOperand false = none ∧
    (Instr.jne 255).badOperand false = some 255 := by decide

/-- LdiWritesTheImmediate, PrnEmitsTheRegister, AddAndMulAreModulo256, AndOrXorAreBitwise, CmpWritesThePattern,
PushStoresAtTheDecrementedSp, PopLoadsThenIncrements, PushThenPopRestores, CallLinksThroughTheStack, JmpSetsPc, at the reset
state: the boundary operand 7 names a register, 0 is a register other than R7, and the reset memory is canonical. -/
theorem witness_instruction : (7 : Byte).toNat < 8 ∧ (0 : Byte).toNat < 8 ∧ (0 : Byte) ≠ 7 ∧ State.reset.mem.wf = true := by
  decide

/-- CmpWritesThePattern: each of the three clauses. -/
theorem witness_cmp : (State.reset.reg 0).toNat = (State.reset.reg 1).toNat ∧ (State.reset.reg 0).toNat < (State.reset.reg 7).toNat ∧
    (State.reset.reg 7).toNat < 245 := by decide

/-- JeqFollowsE and JneFollowsNotE: E set and E clear. -/
theorem witness_branch : ((State.reset.setFl 1).fl).getLsbD 0 = true ∧ (State.reset.fl).getLsbD 0 = false := by decide

/-- HltIsFinal. -/
theorem witness_hlt : (stateAt 253 [0x01]).Running ∧ (stateAt 253 [0x01]).CanFetch ∧ (stateAt 253 [0x01]).byteAt 0 = 0x01 := by decide

/-- OnlyCmpWritesFl and OnlyHltWritesRun: a step that changes FL, and one that changes RUN. -/
theorem witness_fl_and_run : steps (stateAt 0 [0xA7, 0, 1]) (fun t => t.fl != (stateAt 0 [0xA7, 0, 1]).fl) = true ∧
    steps (stateAt 0 [0x01]) (fun t => t.run != (stateAt 0 [0x01]).run) = true ∧
    answers (exec (.cmp 0 1) State.reset) (fun t => t.fl != State.reset.fl) = true := by decide

/-- The state of CallThenRetReturns' witness: CALL R1 at the last address, with a RET at 11. -/
def callState : State := poke ((stateAt 253 [0x50, 1]).setReg 1 11) 11 0x11

/-- CallThenRetReturns. -/
theorem witness_callThenRet : ∃ ha : (callState.byteAt 1).toNat < 8, callState.Running ∧ callState.CanFetch ∧
    callState.mem.wf = true ∧ callState.byteAt 0 = 0x50 ∧ callState.byteAt 1 ≠ 7 ∧
    (callState.reg ⟨(callState.byteAt 1).toNat, ha⟩).toNat ≤ 253 ∧
    callState.reg ⟨(callState.byteAt 1).toNat, ha⟩ ≠ callState.sp - 1 ∧
    callState.mem.read (callState.reg ⟨(callState.byteAt 1).toNat, ha⟩).toNat = 0x11 := by decide

/-- EveryStepKeepsTheInvariant: a state that meets it, running, halted and faulted. -/
theorem witness_invariant : State.reset.Inv ∧ (State.reset.halt).Inv ∧ (State.reset.takeFault (.regIndexOutOfRange 8)).Inv :=
  ⟨⟨by decide, by decide, by decide, nofun, by decide⟩, ⟨by decide, by decide, by decide, fun _ => rfl, by decide⟩,
    ⟨by decide, by decide, by decide, nofun, by decide⟩⟩

/-- OutIsTheSequenceOfPulses: a step that pulses `prn_valid` and one that pulses `inv_valid`. -/
theorem witness_pulses : (stateAt 253 [0x47, 7]).Running ∧ (stateAt 253 [0x47, 7]).CanFetch ∧
    (coreCycle (stateAt 253 [0x47, 7])).2 = ⟨some 0xF4, none⟩ ∧ (coreCycle (stateAt 0 [0x00])).2 = ⟨none, some (0x00, 0)⟩ := by decide

/-- OnlyPushAndCallWriteMemory: a step that changes a byte, by PUSH and by CALL. -/
theorem witness_store : (stateAt 0 [0x45, 7]).mem.wf = true ∧
    steps (stateAt 0 [0x45, 7]) (fun t => t.mem.read 0xF3 != (stateAt 0 [0x45, 7]).mem.read 0xF3) = true ∧
    steps (stateAt 0 [0x50, 0]) (fun t => t.mem.read 0xF3 != (stateAt 0 [0x50, 0]).mem.read 0xF3) = true := by decide

/-- ExecFrame: each clause's condition is met by some instruction. -/
theorem witness_frame : (3 : RegIndex).val ∉ (Instr.pop 2).writesRegs ∧ (Instr.pop 2).stores = false ∧
    answers (exec (.prn 7) State.reset) (fun t => t.out != State.reset.out) = true ∧
    answers (exec .hlt State.reset) (fun t => t.run != State.reset.run) = true ∧
    answers (exec (.prn 8) State.reset) (fun t => t.fault != State.reset.fault) = true := by decide

/-- UnreadRegisterHasNoInfluence. -/
theorem witness_unread : (3 : RegIndex).val ∉ (Instr.add 0 1).readsRegs false ∧ (3 : RegIndex).val ∉ (Instr.add 0 1).writesRegs ∧
    answers (exec (.add 0 1) State.reset) (fun t => t.pc == 3) = true := by decide

end Sys2Proof.Tests
end

