-- ==== Sys2Proof/Proofs/Memory.lean ====
section
/-! PROOFS. The round trip of memory (spec/20_memory.md R126): what a read finds after one write. -/

namespace Sys2Proof.Machine

/-- The list is canonical from any lower bound, so that the induction can pass to its tail; the address written need not
lie in range. -/
theorem Memory.read_write_of_wfFrom {m : Memory} {lo : Nat} (h : Memory.wfFrom lo m = true) (a : Nat) (v : Byte) (b : Nat) :
    Memory.read (Memory.write m a v) b = if b = a then v else Memory.read m b := by
  induction m generalizing lo with
  | nil => exact Memory.read_put v rfl b
  | cons c rest ih =>
    obtain ⟨k, w⟩ := c
    obtain ⟨-, hk, hw, hrest⟩ := (Memory.wfFrom_cons lo k w rest).mp h
    unfold Memory.write
    split
    case isTrue hlt =>
      exact Memory.read_put v ((Memory.wfFrom_cons ..).mpr ⟨hlt, hk, hw, hrest⟩) b
    case isFalse =>
      split
      case isTrue heq =>
        subst heq
        rw [Memory.read_put v hrest b, Memory.read_cons]
        by_cases hb : b = a
        · rw [if_pos hb, if_pos hb]
        · rw [if_neg hb, if_neg hb, if_neg (Ne.symm hb)]
      case isFalse hne =>
        rw [Memory.read_cons, Memory.read_cons, ih hrest]
        by_cases hb : k = b
        · have hba : b ≠ a := fun e => hne (hb.trans e).symm
          rw [if_pos hb, if_neg hba, if_pos hb]
        · rw [if_neg hb, if_neg hb]

/-- R126, both halves of the round trip at once: the value at the address written, every other address as before. -/
theorem Memory.read_write {m : Memory} (h : m.wf = true) (a : Nat) (v : Byte) (b : Nat) :
    (m.write a v).read b = if b = a then v else m.read b := Memory.read_write_of_wfFrom h a v b

theorem Memory.read_write_same {m : Memory} (h : m.wf = true) (a : Nat) (v : Byte) : (m.write a v).read a = v := by
  rw [Memory.read_write h, if_pos rfl]

theorem Memory.read_write_of_ne {m : Memory} (h : m.wf = true) {a b : Nat} (v : Byte) (hb : b ≠ a) :
    (m.write a v).read b = m.read b := by
  rw [Memory.read_write h, if_neg hb]

@[simp] theorem State.resetWith_mem (image : Memory) : (State.resetWith image).mem = image := rfl

/-- Settles O9, by the round trip of `Memory.write` lifted to the fetch's read of an address in range. -/
theorem memoryReadsTheLatestWrite : Obligations.MemoryReadsTheLatestWrite := by
  refine ⟨fun m a b v hwf ha => ⟨?_, fun hb hba => ?_⟩, fun image a ha => ?_⟩
  · rw [memRead_of_lt ha, Memory.read_write_same hwf]
  · rw [memRead_of_lt hb, memRead_of_lt hb, Memory.read_write_of_ne hwf v hba]
  · rw [State.resetWith_mem, memRead_of_lt ha]

end Sys2Proof.Machine
end

