-- ==== Sys2Proof/Proofs/Encoding.lean ====
section
/-! PROOFS. Decoding by exact match (spec/30_encoding.md R148): what `decode` answers, said once, and the opcode byte of
every instruction as a key of the table of R147. -/

namespace Sys2Proof.Machine

/-- The 16 bytes as R147 prints them are the decoder's own keys. -/
theorem isOpcodeByte_iff_mem_knownOpcodes (op : Byte) : isOpcodeByte op = true ↔ op ∈ knownOpcodes := by
  simp only [isOpcodeByte, Bool.or_eq_true, beq_iff_eq, knownOpcodes, List.mem_cons, List.not_mem_nil, or_false, or_assoc]
  rfl

@[simp] theorem isOpcodeByte_opcodeOf (i : Instr) : isOpcodeByte (opcodeOf i) = true := by
  cases i <;> rfl

/-- Everything the decoder can answer (R148, R149): an instruction whose opcode byte is the one decoded, or the report of
a byte that is no key. -/
theorem decode_cases (op a b : Byte) :
    (∃ i, decode op a b = .ok i ∧ opcodeOf i = op) ∨
    (isOpcodeByte op = false ∧ decode op a b = .error (.unknownOpcode op)) := by
  by_cases hop : op ∈ knownOpcodes
  · left
    simp only [knownOpcodes, List.mem_cons, List.not_mem_nil, or_false] at hop
    rcases hop with rfl | rfl | rfl | rfl | rfl | rfl | rfl | rfl | rfl | rfl | rfl | rfl | rfl | rfl | rfl | rfl
    all_goals exact ⟨_, rfl, rfl⟩
  · right
    refine ⟨by rwa [← Bool.not_eq_true, isOpcodeByte_iff_mem_knownOpcodes], ?_⟩
    simp only [knownOpcodes, List.mem_cons, List.not_mem_nil, or_false, not_or] at hop
    simp only [decode, hop, if_false]

/-- No alias (R148): only its own opcode byte selects an instruction. -/
theorem opcodeOf_of_decode {op a b : Byte} {i : Instr} (h : decode op a b = .ok i) : opcodeOf i = op := by
  obtain ⟨j, hj, hop⟩ | ⟨-, herr⟩ := decode_cases op a b
  · cases hj.symm.trans h
    exact hop
  · cases herr.symm.trans h

theorem exists_decode_iff (op a b : Byte) : (∃ i, decode op a b = .ok i) ↔ isOpcodeByte op = true := by
  constructor
  · rintro ⟨i, h⟩
    rw [← opcodeOf_of_decode h, isOpcodeByte_opcodeOf]
  · intro hop
    obtain ⟨i, hi, -⟩ | ⟨hno, -⟩ := decode_cases op a b
    · exact ⟨i, hi⟩
    · cases hno.symm.trans hop

/-- Settles O6, from the one account of what `decode` answers. -/
theorem decodingIsByExactMatch : Obligations.DecodingIsByExactMatch :=
  fun op a b => ⟨exists_decode_iff op a b, fun _ => opcodeOf_of_decode⟩

end Sys2Proof.Machine
end

