-- ==== Sys2Proof/Proofs/Alu.lean ====
section
/-! PROOFS. FL and the ALU (spec/42_alu.md R174): the operations that leave FL alone, then the instructions, then the
step. -/

namespace Sys2Proof.Machine

/-! ## Operations that leave FL alone -/

@[simp] theorem State.decSp_fl (s : State) : s.decSp.fl = s.fl := rfl
@[simp] theorem State.incSp_fl (s : State) : s.incSp.fl = s.fl := rfl

@[simp] theorem State.reportInvalid_fl (s : State) (op : Byte) : (s.reportInvalid op).fl = s.fl :=
  State.loopAdvance_fl _ op

/-- An instruction with one register operand leaves FL alone when its effect does: the operand's fault never writes
FL (R212). -/
theorem withReg_fl {a : Byte} {s t : State} {f : RegIndex → State} (hf : ∀ r, (f r).fl = s.fl)
    (h : withReg a s (fun r => .next (f r)) = .next t) : t.fl = s.fl := by
  obtain ⟨ha, h1⟩ | ⟨-, rfl⟩ := withReg_next h
  · cases h1
    exact hf _
  · exact s.takeFault_fl _

theorem branchIf_fl {taken : Bool} {op a : Byte} {s t : State} (h : branchIf taken op a s = .next t) :
    t.fl = s.fl := by
  obtain ⟨-, ha, rfl⟩ | ⟨-, -, rfl⟩ | ⟨-, rfl⟩ := branchIf_next h
  · exact s.setPc_fl _
  · exact s.takeFault_fl _
  · exact s.setPc_fl _

/-- Only the comparison's tag drives FL (R198). -/
theorem alu_ne_flags {tag : AluTag} (htag : tag ≠ aluCmp) (va vb fl : Byte) : alu tag va vb ≠ .flags fl := by
  unfold alu
  rw [if_neg htag]
  split_ifs <;> exact nofun

theorem execAlu_fl_of_ne_cmp {op a b : Byte} {tag : AluTag} {s t : State} (htag : tag ≠ aluCmp)
    (h : execAlu op tag a b s = .next t) : t.fl = s.fl := by
  obtain ⟨ha, hb, h1⟩ | ⟨-, rfl⟩ | ⟨-, -, rfl⟩ := withRegs_next h
  · cases hout : alu tag (s.reg ⟨a.toNat, ha⟩) (s.reg ⟨b.toNat, hb⟩) with
    | result v =>
      rw [hout] at h1
      cases h1
      simp
    | flags fl => exact absurd hout (alu_ne_flags htag _ _ fl)
    | unsupported =>
      rw [hout] at h1
      cases h1
      simp
  · exact s.takeFault_fl _
  · exact s.takeFault_fl _

/-! ## The instructions and the step -/

/-- R174: an instruction leaves FL alone, or it is a CMP. -/
theorem exec_fl_or_cmp {i : Instr} {s t : State} (h : exec i s = .next t) :
    t.fl = s.fl ∨ ∃ a b, i = .cmp a b := by
  cases i with
  | cmp a b => exact .inr ⟨a, b, rfl⟩
  | add a b | mul a b | and a b | or a b | xor a b => exact .inl (execAlu_fl_of_ne_cmp (by decide) h)
  | ldi a imm => exact .inl (withReg_fl (fun r => by simp) h)
  | prn a | push a | pop a | call a | jmp a => exact .inl (withReg_fl (fun r => by simp) h)
  | jeq a | jne a => exact .inl (branchIf_fl h)
  | hlt | ret =>
    cases h
    simp

/-- R174 for a whole step: it leaves FL alone, or the instruction it executed was a CMP. -/
theorem step_fl_or_cmp {s t : State} (h : step s = .next t) : t.fl = s.fl ∨ s.byteAt 0 = Opcode.cmp := by
  obtain ⟨-, rfl⟩ | ⟨-, -, rfl⟩ | ⟨-, -, i, hdec, hexec⟩ | ⟨-, -, -, rfl⟩ := step_cases h
  case inl => exact .inl rfl
  case inr.inl => exact .inl (s.takeFault_fl _)
  case inr.inr.inl =>
    obtain hfl | ⟨a, b, rfl⟩ := exec_fl_or_cmp hexec
    · exact .inl hfl
    · exact .inr (opcodeOf_of_decode hdec).symm
  case inr.inr.inr => exact .inl (s.reportInvalid_fl _)

/-- Settles O32: of an instruction, and of a step, only the second of its two outcomes can change FL. -/
theorem onlyCmpWritesFl : Obligations.OnlyCmpWritesFl :=
  ⟨fun _ _ _ h hne => (exec_fl_or_cmp h).resolve_left hne,
    fun _ _ h hne => (step_fl_or_cmp h).resolve_left hne⟩

end Sys2Proof.Machine
end

