-- ==== Sys2Proof/Proofs/RoundTrip.lean ====
section
/-! PROOFS. The encoder and the decoder undo each other (spec/30_encoding.md R141 to R144). -/

namespace Sys2Proof.Machine

/-- The decoder needs no byte outside the encoding: wherever the bytes of `i` stand, `i` is decoded (R141, R144). -/
theorem decode_of_encode_getElem? {i : Instr} {f : Nat → Byte} (h : ∀ k v, (encode i)[k]? = some v → f k = v) :
    decode (f 0) (f 1) (f 2) = .ok i := by
  cases i with
  | hlt | ret =>
    rw [h 0 _ rfl]
    rfl
  | prn | push | pop | call | jmp | jeq | jne =>
    rw [h 0 _ rfl, h 1 _ rfl]
    rfl
  | ldi | add | mul | and | or | xor | cmp =>
    rw [h 0 _ rfl, h 1 _ rfl, h 2 _ rfl]
    rfl

theorem length_encode (i : Instr) : (encode i).length = opLen (opcodeOf i) := by
  cases i <;> simp [encode, operandBytes, opcodeOf]

theorem decode_of_encode_append (i : Instr) (rest : List Byte) :
    decode (opcodeOf i) ((operandBytes i ++ rest).getD 0 0) ((operandBytes i ++ rest).getD 1 0) = .ok i := by
  refine decode_of_encode_getElem? (f := fun k => (encode i ++ rest).getD k 0) fun k v hk => ?_
  have happ : (encode i ++ rest)[k]? = some v := by
    rw [List.getElem?_append_left (List.getElem?_eq_some_iff.mp hk).1, hk]
  simp [List.getD_eq_getElem?_getD, happ]

/-- Settles O7: the decoder finds the instruction at the head of the bytes, and the opcode byte tells how many to take. -/
theorem decodeReadsBackEncode : Obligations.DecodeReadsBackEncode := by
  intro i rest
  have hlen : (operandBytes i).length + 1 = opLen (opcodeOf i) := length_encode i
  have henough : ¬ (operandBytes i ++ rest).length + 1 < opLen (opcodeOf i) := by
    rw [List.length_append]
    omega
  have htake : opLen (opcodeOf i) - 1 = (operandBytes i).length := by omega
  simp only [encode, List.cons_append, decodeBytes, decode_of_encode_append, if_neg henough, htake, List.drop_left]

/-- The length field of an opcode byte as a quotient (R143). -/
theorem opLen_eq_div (op : Byte) : opLen op = op.toNat / 64 + 1 := by
  simp [opLen, BitVec.toNat_ushiftRight, Nat.shiftRight_eq_div_pow]

theorem encode_of_decode {op a b : Byte} {i : Instr} (h : decode op a b = .ok i) :
    encode i = [op, a, b].take (opLen op) := by
  obtain rfl := opcodeOf_of_decode h
  cases i <;> cases h <;> simp [encode, operandBytes, opcodeOf]

/-- Settles O8: the operands of a decoded instruction are the bytes after the opcode byte. -/
theorem encodeReadsBackDecode : Obligations.EncodeReadsBackDecode := by
  intro op a b i h
  rw [encode_of_decode h, opLen_eq_div]

/-- Settles O5: each word evaluates. -/
theorem writtenOutWordsDecode : Obligations.WrittenOutWordsDecode :=
  ⟨rfl, rfl, rfl, rfl, rfl, rfl⟩

end Sys2Proof.Machine
end

