-- ==== Sys2Proof/Proofs/Effects.lean ====
section
/-! PROOFS. What an instruction does, said once: it takes the fault of the first accessed operand byte above 7, or it
completes with the effect its row of R111 gives. Every statement about instructions and steps is read off these two
outcomes. -/

namespace Sys2Proof.Machine

/-! ## An operand byte above 7 -/

theorem withReg_of_bad {a bad : Byte} (h : (if 7 < a.toNat then some a else none) = some bad) (s : State)
    (k : RegIndex → Host.Outcome State Fault Refusal) :
    withReg a s k = .next (s.takeFault (.regIndexOutOfRange bad)) := by
  obtain ⟨ha, ⟨⟩⟩ := Option.ite_none_right_eq_some.mp h
  exact withReg_of_ge ha s k

theorem withRegs_of_bad {a b bad : Byte}
    (h : (if 7 < a.toNat then some a else if 7 < b.toNat then some b else none) = some bad) (s : State)
    (k : RegIndex → RegIndex → Host.Outcome State Fault Refusal) :
    withRegs a b s k = .next (s.takeFault (.regIndexOutOfRange bad)) := by
  by_cases ha : 7 < a.toNat
  · exact withReg_of_bad (by rwa [if_pos ha] at h ⊢) s _
  · rw [if_neg ha] at h
    rw [withRegs, withReg_of_lt (by omega), withReg_of_bad h]

theorem branchIf_of_bad {taken : Bool} {op a bad : Byte}
    (h : (if taken && decide (7 < a.toNat) then some a else none) = some bad) (s : State) :
    branchIf taken op a s = .next (s.takeFault (.regIndexOutOfRange bad)) := by
  cases taken with
  | false => cases h
  | true => exact withReg_of_bad (by simpa using h) s _

/-- The first accessed operand byte above 7 is the fault, whatever the instruction (R210, R213). -/
theorem exec_of_badOperand {i : Instr} {s : State} {bad : Byte} (h : i.badOperand s.flagE = some bad) :
    exec i s = .next (s.takeFault (.regIndexOutOfRange bad)) := by
  cases i with
  | hlt | ret => cases h
  | ldi a imm => exact withReg_of_bad h s _
  | prn a | push a | pop a | call a | jmp a => exact withReg_of_bad h s _
  | add a b | mul a b | and a b | or a b | xor a b | cmp a b => exact withRegs_of_bad h s _
  | jeq a | jne a => exact branchIf_of_bad h s

theorem badOperand_gt {i : Instr} {e : Bool} {bad : Byte} (h : i.badOperand e = some bad) : 7 < bad.toNat := by
  cases i with
  | hlt | ret => cases h
  | ldi a imm =>
    obtain ⟨ha, ⟨⟩⟩ := Option.ite_none_right_eq_some.mp h
    exact ha
  | prn a | push a | pop a | call a | jmp a =>
    obtain ⟨ha, ⟨⟩⟩ := Option.ite_none_right_eq_some.mp h
    exact ha
  | add a b | mul a b | and a b | or a b | xor a b | cmp a b =>
    simp only [Instr.badOperand] at h
    split_ifs at h <;> cases h <;> assumption
  | jeq a | jne a =>
    obtain ⟨ha, ⟨⟩⟩ := Option.ite_none_right_eq_some.mp h
    exact of_decide_eq_true (Bool.and_eq_true_iff.mp ha).2

/-! ## Completion -/

/-- `Completes s i t`: started in `s`, the instruction `i` accesses registers 0 to 7 only and leaves `t` (the effect
column of R169 to R192 with the PC of R164). -/
inductive Completes (s : State) : Instr → State → Prop where
  | ldi {a imm : Byte} (ha : a.toNat < 8) :
      Completes s (.ldi a imm) ((s.setReg ⟨a.toNat, ha⟩ imm).setPc (pcPlus s.pc 3))
  | prn {a : Byte} (ha : a.toNat < 8) :
      Completes s (.prn a) ((s.emit (.print (s.reg ⟨a.toNat, ha⟩))).setPc (pcPlus s.pc 2))
  | hlt : Completes s .hlt (s.halt.setPc (pcPlus s.pc 1))
  | add {a b : Byte} (ha : a.toNat < 8) (hb : b.toNat < 8) :
      Completes s (.add a b)
        ((s.setReg ⟨a.toNat, ha⟩ (wrap8 ((s.reg ⟨a.toNat, ha⟩).toNat + (s.reg ⟨b.toNat, hb⟩).toNat))).setPc
          (pcPlus s.pc 3))
  | mul {a b : Byte} (ha : a.toNat < 8) (hb : b.toNat < 8) :
      Completes s (.mul a b)
        ((s.setReg ⟨a.toNat, ha⟩ (wrap8 ((s.reg ⟨a.toNat, ha⟩).toNat * (s.reg ⟨b.toNat, hb⟩).toNat))).setPc
          (pcPlus s.pc 3))
  | and {a b : Byte} (ha : a.toNat < 8) (hb : b.toNat < 8) :
      Completes s (.and a b)
        ((s.setReg ⟨a.toNat, ha⟩ (s.reg ⟨a.toNat, ha⟩ &&& s.reg ⟨b.toNat, hb⟩)).setPc (pcPlus s.pc 3))
  | or {a b : Byte} (ha : a.toNat < 8) (hb : b.toNat < 8) :
      Completes s (.or a b)
        ((s.setReg ⟨a.toNat, ha⟩ (s.reg ⟨a.toNat, ha⟩ ||| s.reg ⟨b.toNat, hb⟩)).setPc (pcPlus s.pc 3))
  | xor {a b : Byte} (ha : a.toNat < 8) (hb : b.toNat < 8) :
      Completes s (.xor a b)
        ((s.setReg ⟨a.toNat, ha⟩ (s.reg ⟨a.toNat, ha⟩ ^^^ s.reg ⟨b.toNat, hb⟩)).setPc (pcPlus s.pc 3))
  | push {a : Byte} (ha : a.toNat < 8) :
      Completes s (.push a) ((s.decSp.store s.pushAddr (s.decSp.reg ⟨a.toNat, ha⟩)).setPc (pcPlus s.pc 2))
  | pop {a : Byte} (ha : a.toNat < 8) :
      Completes s (.pop a) ((s.setReg ⟨a.toNat, ha⟩ s.stackTop).incSp.setPc (pcPlus s.pc 2))
  | call {a : Byte} (ha : a.toNat < 8) :
      Completes s (.call a)
        ((s.decSp.store s.pushAddr (returnAddress s.pc)).setPc (pcOfByte (s.decSp.reg ⟨a.toNat, ha⟩)))
  | ret : Completes s .ret (s.incSp.setPc (pcOfByte s.stackTop))
  | cmp {a b : Byte} (ha : a.toNat < 8) (hb : b.toNat < 8) :
      Completes s (.cmp a b)
        ((s.setFl (compareFlags (s.reg ⟨a.toNat, ha⟩) (s.reg ⟨b.toNat, hb⟩))).setPc (pcPlus s.pc 3))
  | jmp {a : Byte} (ha : a.toNat < 8) : Completes s (.jmp a) (s.setPc (pcOfByte (s.reg ⟨a.toNat, ha⟩)))
  | jeqTaken {a : Byte} (hE : s.flagE = true) (ha : a.toNat < 8) :
      Completes s (.jeq a) (s.setPc (pcOfByte (s.reg ⟨a.toNat, ha⟩)))
  | jeqNotTaken {a : Byte} (hE : s.flagE = false) : Completes s (.jeq a) (s.setPc (pcPlus s.pc 2))
  | jneTaken {a : Byte} (hE : s.flagE = false) (ha : a.toNat < 8) :
      Completes s (.jne a) (s.setPc (pcOfByte (s.reg ⟨a.toNat, ha⟩)))
  | jneNotTaken {a : Byte} (hE : s.flagE = true) : Completes s (.jne a) (s.setPc (pcPlus s.pc 2))

theorem State.loopAdvance_of_clear {op : Byte} (h : opSetsPc op = false) (s : State) :
    s.loopAdvance op = s.setPc (pcPlus s.pc (opLen op)) := by
  rw [State.loopAdvance, h]
  rfl

theorem branchIf_of_taken {a : Byte} (ha : a.toNat < 8) (op : Byte) (s : State) :
    branchIf true op a s = .next (s.setPc (pcOfByte (s.reg ⟨a.toNat, ha⟩))) := withReg_of_lt ha s _

theorem branchIf_of_not_taken (op a : Byte) (s : State) :
    branchIf false op a s = .next (s.setPc (pcPlus s.pc (opLen op))) := rfl

theorem execAlu_of_result {op a b v : Byte} {tag : AluTag} {s : State} (ha : a.toNat < 8) (hb : b.toNat < 8)
    (hout : alu tag (s.reg ⟨a.toNat, ha⟩) (s.reg ⟨b.toNat, hb⟩) = .result v) (hclear : opSetsPc op = false) :
    execAlu op tag a b s = .next ((s.setReg ⟨a.toNat, ha⟩ v).setPc (pcPlus s.pc (opLen op))) := by
  rw [execAlu_of_lt ha hb, hout, aluWriteBack, State.loopAdvance_of_clear hclear, State.setReg_pc]

theorem execAlu_of_flags {op a b fl : Byte} {tag : AluTag} {s : State} (ha : a.toNat < 8) (hb : b.toNat < 8)
    (hout : alu tag (s.reg ⟨a.toNat, ha⟩) (s.reg ⟨b.toNat, hb⟩) = .flags fl) (hclear : opSetsPc op = false) :
    execAlu op tag a b s = .next ((s.setFl fl).setPc (pcPlus s.pc (opLen op))) := by
  rw [execAlu_of_lt ha hb, hout, aluWriteBack, State.loopAdvance_of_clear hclear, State.setFl_pc]

/-- A completion is what `exec` answers. -/
theorem Completes.exec_eq {s t : State} {i : Instr} (h : Completes s i t) : exec i s = .next t := by
  cases h with
  | ldi ha => simp [exec, execLdi, withReg_of_lt ha, State.loopAdvance_of_clear]
  | prn ha => simp [exec, execPrn, withReg_of_lt ha, State.loopAdvance_of_clear]
  | hlt => simp [exec, execHlt, State.loopAdvance_of_clear]
  | push ha => simp [exec, execPush, withReg_of_lt ha, State.loopAdvance_of_clear, State.decSp_eq]
  | pop ha => simp [exec, execPop, withReg_of_lt ha, State.loopAdvance_of_clear, State.incSp_eq]
  | call ha => rw [exec, execCall, withReg_of_lt ha]
  | ret => rfl
  | add ha hb => rw [exec, execAdd, execAlu_of_result ha hb rfl opSetsPc_add, opLen_add]
  | mul ha hb => rw [exec, execMul, execAlu_of_result ha hb rfl opSetsPc_mul, opLen_mul]
  | and ha hb => rw [exec, execAnd, execAlu_of_result ha hb rfl opSetsPc_and, opLen_and]
  | or ha hb => rw [exec, execOr, execAlu_of_result ha hb rfl opSetsPc_or, opLen_or]
  | xor ha hb => rw [exec, execXor, execAlu_of_result ha hb rfl opSetsPc_xor, opLen_xor]
  | cmp ha hb => rw [exec, execCmp, execAlu_of_flags ha hb rfl opSetsPc_cmp, opLen_cmp]
  | jmp ha => rw [exec, execJmp, withReg_of_lt ha]
  | jeqTaken hE ha => rw [exec, execJeq, hE, branchIf_of_taken ha]
  | jeqNotTaken hE => rw [exec, execJeq, hE, branchIf_of_not_taken, opLen_jeq]
  | jneTaken hE ha => rw [exec, execJne, hE, Bool.not_false, branchIf_of_taken ha]
  | jneNotTaken hE => rw [exec, execJne, hE, Bool.not_true, branchIf_of_not_taken, opLen_jne]

theorem operand_lt {a : Byte} (h : (if 7 < a.toNat then some a else none) = none) : a.toNat < 8 := by
  split_ifs at h
  omega

theorem operands_lt {a b : Byte} (h : (if 7 < a.toNat then some a else if 7 < b.toNat then some b else none) = none) :
    a.toNat < 8 ∧ b.toNat < 8 := by
  split_ifs at h
  omega

/-- With every accessed operand byte 0 to 7 the instruction completes (R111, R145). -/
theorem exists_completes {i : Instr} {s : State} (h : i.badOperand s.flagE = none) : ∃ t, Completes s i t := by
  cases i with
  | ldi a imm => exact ⟨_, .ldi (operand_lt h)⟩
  | prn a => exact ⟨_, .prn (operand_lt h)⟩
  | hlt => exact ⟨_, .hlt⟩
  | add a b => exact ⟨_, .add (operands_lt h).1 (operands_lt h).2⟩
  | mul a b => exact ⟨_, .mul (operands_lt h).1 (operands_lt h).2⟩
  | and a b => exact ⟨_, .and (operands_lt h).1 (operands_lt h).2⟩
  | or a b => exact ⟨_, .or (operands_lt h).1 (operands_lt h).2⟩
  | xor a b => exact ⟨_, .xor (operands_lt h).1 (operands_lt h).2⟩
  | push a => exact ⟨_, .push (operand_lt h)⟩
  | pop a => exact ⟨_, .pop (operand_lt h)⟩
  | call a => exact ⟨_, .call (operand_lt h)⟩
  | ret => exact ⟨_, .ret⟩
  | cmp a b => exact ⟨_, .cmp (operands_lt h).1 (operands_lt h).2⟩
  | jmp a => exact ⟨_, .jmp (operand_lt h)⟩
  | jeq a =>
    cases hE : s.flagE with
    | true => exact ⟨_, .jeqTaken hE (operand_lt (by simpa [Instr.badOperand, hE] using h))⟩
    | false => exact ⟨_, .jeqNotTaken hE⟩
  | jne a =>
    cases hE : s.flagE with
    | true => exact ⟨_, .jneNotTaken hE⟩
    | false => exact ⟨_, .jneTaken hE (operand_lt (by simpa [Instr.badOperand, hE] using h))⟩

theorem Completes.badOperand_eq {s t : State} {i : Instr} (h : Completes s i t) : i.badOperand s.flagE = none := by
  cases h with
  | hlt | ret => rfl
  | ldi ha => exact if_neg (by omega)
  | prn ha | push ha | pop ha | call ha | jmp ha => exact if_neg (by omega)
  | add ha hb | mul ha hb | and ha hb | or ha hb | xor ha hb | cmp ha hb =>
    exact (if_neg (by omega)).trans (if_neg (by omega))
  | jeqTaken hE ha | jneTaken hE ha => exact if_neg (by simp [hE, Nat.le_of_lt_succ ha])
  | jeqNotTaken hE | jneNotTaken hE => exact if_neg (by simp [hE])

/-- Everything an instruction can do. -/
theorem exec_cases {i : Instr} {s t : State} (h : exec i s = .next t) :
    (∃ bad, i.badOperand s.flagE = some bad ∧ t = s.takeFault (.regIndexOutOfRange bad)) ∨
    Completes s i t := by
  cases hbad : i.badOperand s.flagE with
  | some bad =>
    rw [exec_of_badOperand hbad] at h
    exact .inl ⟨bad, rfl, (Host.Outcome.next.inj h).symm⟩
  | none =>
    obtain ⟨u, hu⟩ := exists_completes hbad
    rw [hu.exec_eq] at h
    cases h
    exact .inr hu

theorem exec_answers (i : Instr) (s : State) : ∃ t, exec i s = .next t := by
  cases hbad : i.badOperand s.flagE with
  | some bad => exact ⟨_, exec_of_badOperand hbad⟩
  | none =>
    obtain ⟨t, ht⟩ := exists_completes hbad
    exact ⟨t, ht.exec_eq⟩

/-! ## Faults of an instruction -/

theorem Completes.fault_eq {s t : State} {i : Instr} (h : Completes s i t) : t.fault = s.fault := by
  cases h <;> rfl

/-- Settles O22, from the one account of a bad operand. -/
theorem registerIndexOutOfRangeFaults : Obligations.RegisterIndexOutOfRangeFaults :=
  fun _ _ _ h => exec_of_badOperand h

/-- Settles O23: with its operands in range an instruction completes, and a completion sets no fault. -/
theorem instructionInRangeCompletes : Obligations.InstructionInRangeCompletes := by
  intro i s h
  obtain ⟨t, ht⟩ := exists_completes h
  exact ⟨t, ht.exec_eq, ht.fault_eq⟩

end Sys2Proof.Machine
end

