-- ==== Sys2Proof/Proofs/Boot.lean ====
section
/-! PROOFS. Memory as a value, reset, boot and the loader (spec/20_memory.md, spec/70_reset_and_hazards.md R221, R222,
spec/30_encoding.md R154). -/

namespace Sys2Proof.Machine

/-! ## Canonical memories -/

/-- A canonical list and one that starts above its first address cannot read alike: the first cell tells them apart. -/
theorem Memory.read_ne_of_head_lt {lo k : Nat} {v : Byte} {rest m : Memory}
    (h : Memory.wfFrom lo ((k, v) :: rest) = true) (hm : Memory.wfFrom (k + 1) m = true) :
    Memory.read ((k, v) :: rest) k ≠ Memory.read m k := by
  obtain ⟨-, -, hv, -⟩ := (Memory.wfFrom_cons ..).mp h
  rwa [Memory.read_cons, if_pos rfl, Memory.read_of_lt hm (Nat.lt_succ_self k)]

/-- Reading alike passes to the tails: below their bound both hold nothing. -/
theorem Memory.tails_read_alike {k : Nat} {v : Byte} {m n : Memory} (hm : Memory.wfFrom (k + 1) m = true)
    (hn : Memory.wfFrom (k + 1) n = true)
    (h : ∀ a, a < Config.memSize → Memory.read ((k, v) :: m) a = Memory.read ((k, v) :: n) a) :
    ∀ a, a < Config.memSize → Memory.read m a = Memory.read n a := by
  intro a ha
  by_cases hk : k = a
  · subst hk
    rw [Memory.read_of_lt hm (Nat.lt_succ_self k), Memory.read_of_lt hn (Nat.lt_succ_self k)]
  · simpa [Memory.read_cons, hk] using h a ha

/-- Where the other list has ended, or starts later, the first cell is a difference. -/
theorem Memory.eq_of_read_alike {m n : Memory} {lo : Nat} (hm : Memory.wfFrom lo m = true)
    (hn : Memory.wfFrom lo n = true) (h : ∀ a, a < Config.memSize → Memory.read m a = Memory.read n a) : m = n := by
  induction m generalizing lo n with
  | nil =>
    cases n with
    | nil => rfl
    | cons d restN =>
      obtain ⟨-, hk, -, -⟩ := (Memory.wfFrom_cons ..).mp hn
      exact absurd (h d.1 hk).symm (Memory.read_ne_of_head_lt hn rfl)
  | cons c restM ih =>
    obtain ⟨k, v⟩ := c
    obtain ⟨-, hk, hv, hrestM⟩ := (Memory.wfFrom_cons ..).mp hm
    cases n with
    | nil => exact absurd (h k hk) (Memory.read_ne_of_head_lt hm rfl)
    | cons d restN =>
      obtain ⟨k', v'⟩ := d
      obtain ⟨-, hk', hv', hrestN⟩ := (Memory.wfFrom_cons ..).mp hn
      obtain hlt | rfl | hgt := Nat.lt_trichotomy k k'
      · have hn' : Memory.wfFrom (k + 1) ((k', v') :: restN) = true :=
          (Memory.wfFrom_cons ..).mpr ⟨hlt, hk', hv', hrestN⟩
        exact absurd (h k hk) (Memory.read_ne_of_head_lt hm hn')
      · have hvv : v = v' := by simpa [Memory.read_cons] using h k hk
        subst hvv
        rw [ih hrestM hrestN (Memory.tails_read_alike hrestM hrestN h)]
      · have hm' : Memory.wfFrom (k' + 1) ((k, v) :: restM) = true :=
          (Memory.wfFrom_cons ..).mpr ⟨hgt, hk, hv, hrestM⟩
        exact absurd (h k' hk').symm (Memory.read_ne_of_head_lt hn hm')

/-- Settles O10, by induction on one of the two lists from any lower bound. -/
theorem canonicalMemoriesThatReadAlikeAreEqual : Obligations.CanonicalMemoriesThatReadAlikeAreEqual :=
  fun _ _ hm hn h => Memory.eq_of_read_alike hm hn h

/-- What is read after bytes were placed inside a canonical memory: the byte placed there, or what was there before. -/
theorem Memory.read_place {m : Memory} (h : m.wf = true) (bs : List Byte) (a c : Nat)
    (hb : a + bs.length ≤ Config.memSize) :
    (m.place a bs).read c = if a ≤ c then bs.getD (c - a) (m.read c) else m.read c := by
  induction bs generalizing m a with
  | nil => simp [Memory.place]
  | cons v rest ih =>
    rw [List.length_cons] at hb
    rw [Memory.place, ih (Memory.wf_write v h (by omega)) (a + 1) (by omega), Memory.read_write h]
    obtain hlt | rfl | hgt := Nat.lt_trichotomy c a
    · have hac : ¬ a ≤ c := by omega
      have hac' : ¬ a + 1 ≤ c := by omega
      rw [if_neg hac', if_neg hac, if_neg hlt.ne]
    · simp
    · have hsub : c - a = c - (a + 1) + 1 := by omega
      rw [if_pos (Nat.succ_le_of_lt hgt), if_pos hgt.le, if_neg hgt.ne', hsub, List.getD_cons_succ]

/-! ## Reset and boot -/

theorem regsReset_of_ne : ∀ r : RegIndex, r ≠ 7 → regsReset[r] = 0 := by decide

/-- Settles O1: each field by the definition of reset. -/
theorem resetGivesEveryFieldItsResetValue : Obligations.ResetGivesEveryFieldItsResetValue :=
  ⟨fun _ => ⟨rfl, regsReset_of_ne, rfl, rfl, rfl, rfl, rfl, rfl⟩, rfl, fun _ => rfl⟩

theorem inv_resetWith {image : Memory} (h : image.wf = true) : (State.resetWith image).Inv where
  mem_canonical := h
  fl_pattern := rfl
  pc_bound := Nat.zero_le 257
  halted_not_faulted _ := rfl
  fault_explained := rfl

/-- Settles O2. -/
theorem resetMeetsTheInvariant : Obligations.ResetMeetsTheInvariant :=
  ⟨inv_resetWith Memory.wf_nil, fun _ => inv_resetWith⟩

theorem boot_of_le {prog : List Byte} (h : prog.length ≤ Config.memSize) :
    boot prog = some (State.resetWith (memInit prog)) := if_pos h

theorem boot_of_gt {prog : List Byte} (h : Config.memSize < prog.length) : boot prog = none :=
  if_neg (Nat.not_le.mpr h)

theorem memInit_read {prog : List Byte} (h : prog.length ≤ Config.memSize) (k : Nat) :
    (memInit prog).read k = prog.getD k 0 := by
  rw [memInit, Memory.read_place Memory.wf_nil prog 0 k (by omega), if_pos (Nat.zero_le k)]
  rfl

theorem memInit_wf {prog : List Byte} (h : prog.length ≤ Config.memSize) : (memInit prog).wf = true :=
  Memory.wf_place Memory.wf_nil prog 0 (by omega)

/-- Settles O3: the image holds the program, and reset with a canonical image meets the invariant. -/
theorem bootPlacesTheProgram : Obligations.BootPlacesTheProgram :=
  fun _ => ⟨fun h => ⟨_, boot_of_le h, inv_resetWith (memInit_wf h), ⟨rfl, rfl⟩, rfl, memInit_read h⟩,
    boot_of_gt⟩

/-! ## The loader -/

theorem parseLines_cons_none {line : List Char} (h : LineHolds line none) (n : Nat) (rest : List (List Char)) :
    parseLines n (line :: rest) = parseLines (n + 1) rest := by
  rw [parseLines, (parseLine_eq_some_iff line none).mpr h]

theorem parseLines_cons_some {line : List Char} {v : Byte} (h : LineHolds line (some v)) (n : Nat)
    (rest : List (List Char)) :
    parseLines n (line :: rest) = (parseLines (n + 1) rest).map (v :: ·) := by
  rw [parseLines, (parseLine_eq_some_iff line (some v)).mpr h]
  cases parseLines (n + 1) rest <;> rfl

theorem parseLines_cons_bad {bad : List Char} (h : ∀ c, ¬ LineHolds bad c) (n : Nat) (rest : List (List Char)) :
    parseLines n (bad :: rest) = .error (.badLine n) := by
  rw [parseLines, (parseLine_eq_none_iff bad).mpr h]

/-- Lines of the three forms give their bytes, and reading goes on with what follows them (R154). -/
theorem parseLines_append (n : Nat) {text : List (List Char × Option Byte)} (h : ∀ p ∈ text, LineHolds p.1 p.2)
    (tail : List (List Char)) :
    parseLines n (text.map Prod.fst ++ tail) =
      (parseLines (n + text.length) tail).map (text.filterMap Prod.snd ++ ·) := by
  induction text generalizing n with
  | nil =>
    change parseLines n tail = (parseLines n tail).map ([] ++ ·)
    cases parseLines n tail <;> rfl
  | cons p rest ih =>
    obtain ⟨line, c⟩ := p
    obtain ⟨hline, hrest⟩ := List.forall_mem_cons.mp h
    have hlen : n + (rest.length + 1) = n + 1 + rest.length := by omega
    rw [List.map_cons, List.cons_append, List.length_cons, hlen]
    cases c with
    | none =>
      rw [parseLines_cons_none hline, ih (n + 1) hrest, List.filterMap_cons_none rfl]
    | some v =>
      rw [parseLines_cons_some hline, ih (n + 1) hrest, List.filterMap_cons_some (f := Prod.snd) rfl]
      cases parseLines (n + 1 + rest.length) tail <;> rfl

theorem parseLines_text (n : Nat) {text : List (List Char × Option Byte)} (h : ∀ p ∈ text, LineHolds p.1 p.2) :
    parseLines n (text.map Prod.fst) = .ok (text.filterMap Prod.snd) := by
  have happ := parseLines_append n h []
  rw [List.append_nil] at happ
  rw [happ, parseLines, Except.map, List.append_nil]

theorem parseLines_text_bad (n : Nat) {text : List (List Char × Option Byte)} (h : ∀ p ∈ text, LineHolds p.1 p.2)
    {bad : List Char} (hbad : ∀ c, ¬ LineHolds bad c) (rest : List (List Char)) :
    parseLines n (text.map Prod.fst ++ bad :: rest) = .error (.badLine (n + text.length)) := by
  rw [parseLines_append n h, parseLines_cons_bad hbad, Except.map]

/-- Settles O4, by induction on the lines read so far with any text after them. -/
theorem loaderReadsBackWrittenBytes : Obligations.LoaderReadsBackWrittenBytes :=
  fun n _ h => ⟨parseLines_text n h, fun _ rest hbad => parseLines_text_bad n h hbad rest⟩

/-- Settles O49: what the loader reads is what is booted. -/
theorem loadingATextBootsItsBytes : Obligations.LoadingATextBootsItsBytes := by
  intro text h
  have hread := parseLines_text 1 h
  refine ⟨fun hle => ⟨State.resetWith (memInit (text.filterMap Prod.snd)), ?_, rfl, memInit_read hle⟩,
    fun hgt => ?_, fun bad rest hbad => ?_⟩
  · simp only [bootText, hread, boot_of_le hle]
  · simp only [bootText, hread, boot_of_gt hgt]
  · simp only [bootText, parseLines_text_bad 1 h hbad, Nat.add_comm 1]

end Sys2Proof.Machine
end

