-- ==== Sys2Proof/Proofs/Steps.lean ====
section
/-! PROOFS. The step and runs of it (spec/40_execution_cycle.md R155 to R168, spec/60_exceptions.md R206 to R213). -/

namespace Sys2Proof.Machine

/-! ## What a step answers -/

theorem State.running_of_not_stopped {s : State} (h : ¬ s.stopped = true) : s.Running :=
  (s.stopped_eq_false_iff).mp (Bool.not_eq_true _ ▸ h)

theorem step_of_stopped {s : State} (h : s.stopped = true) : step s = .next s := if_pos h

theorem step_of_gt {s : State} (hr : s.Running) (h : 253 < s.pc.toNat) :
    step s = .next (s.takeFault (.memAddressOutOfRange (max 256 s.pc.toNat))) := by
  simp only [step, (s.stopped_eq_false_iff).mpr hr, fetch_of_gt h, Bool.false_eq_true, if_false]

theorem fetch_eq_byteAt {s : State} (h : s.CanFetch) : fetch s = .ok ⟨s.byteAt 0, s.byteAt 1, s.byteAt 2⟩ :=
  fetch_of_le h

theorem step_of_decode {s : State} {i : Instr} (hr : s.Running) (hf : s.CanFetch)
    (hd : decode (s.byteAt 0) (s.byteAt 1) (s.byteAt 2) = .ok i) : step s = exec i s := by
  simp only [step, (s.stopped_eq_false_iff).mpr hr, fetch_eq_byteAt hf, hd, Bool.false_eq_true, if_false]

theorem decode_of_unknown {op : Byte} (h : isOpcodeByte op = false) (a b : Byte) :
    decode op a b = .error (.unknownOpcode op) := by
  obtain ⟨i, -, rfl⟩ | ⟨-, herr⟩ := decode_cases op a b
  · cases h.symm.trans (isOpcodeByte_opcodeOf i)
  · exact herr

theorem step_of_unknown {s : State} (hr : s.Running) (hf : s.CanFetch) (h : isOpcodeByte (s.byteAt 0) = false) :
    step s = .next (s.reportInvalid (s.byteAt 0)) := by
  simp only [step, (s.stopped_eq_false_iff).mpr hr, fetch_eq_byteAt hf, decode_of_unknown h, Bool.false_eq_true, if_false]

theorem reportInvalid_eq (s : State) (op : Byte) :
    s.reportInvalid op = { s with
      out := s.out ++ [Event.invalid op s.pc]
      pc := if op.getLsbD 4 then s.pc else s.pc + BitVec.ofNat 9 (op.toNat / 64 + 1) } := by
  rw [State.reportInvalid, State.loopAdvance, opSetsPc, opLen_eq_div]
  split <;> rfl

/-- Everything a running machine's step can do: two kinds of fault, a completed instruction, a skipped byte. -/
theorem step_outcomes {s t : State} (hr : s.Running) (h : step s = .next t) :
    (253 < s.pc.toNat ∧ t = s.takeFault (.memAddressOutOfRange (max 256 s.pc.toNat))) ∨
    (s.CanFetch ∧ ∃ i bad, decode (s.byteAt 0) (s.byteAt 1) (s.byteAt 2) = .ok i ∧
      i.badOperand s.flagE = some bad ∧ t = s.takeFault (.regIndexOutOfRange bad)) ∨
    (s.CanFetch ∧ ∃ i, decode (s.byteAt 0) (s.byteAt 1) (s.byteAt 2) = .ok i ∧ Completes s i t) ∨
    (s.CanFetch ∧ isOpcodeByte (s.byteAt 0) = false ∧ t = s.reportInvalid (s.byteAt 0)) := by
  obtain ⟨hstop, -⟩ | ⟨-, hpc, ht⟩ | ⟨-, hf, i, hd, hexec⟩ | ⟨-, hf, ⟨r, hd⟩, ht⟩ := step_cases h
  case inl => cases hstop.symm.trans ((s.stopped_eq_false_iff).mpr hr)
  case inr.inl => exact .inl ⟨hpc, ht⟩
  case inr.inr.inl =>
    obtain ⟨bad, hbad, ht⟩ | hc := exec_cases hexec
    · exact .inr (.inl ⟨hf, i, bad, hd, hbad, ht⟩)
    · exact .inr (.inr (.inl ⟨hf, i, hd, hc⟩))
  case inr.inr.inr =>
    obtain ⟨i, hi, -⟩ | ⟨hop, -⟩ := decode_cases (s.byteAt 0) (s.byteAt 1) (s.byteAt 2)
    · cases hd.symm.trans hi
    · exact .inr (.inr (.inr ⟨hf, hop, ht⟩))

/-- Settles O11. -/
theorem stepRunsTheDecodedInstruction : Obligations.StepRunsTheDecodedInstruction :=
  fun _ _ => step_of_decode

/-- Settles O12: the bytes of the encoding are all the decoder needs. -/
theorem stepRunsTheEncodedInstruction : Obligations.StepRunsTheEncodedInstruction :=
  fun _ _ hr hf h => step_of_decode hr hf (decode_of_encode_getElem? h)

/-- Settles O14. -/
theorem unknownOpcodeIsReportedAndSkipped : Obligations.UnknownOpcodeIsReportedAndSkipped := by
  intro s hr hf hop
  rw [step_of_unknown hr hf hop, reportInvalid_eq]

/-- Settles O16: the address of the fault is the larger of 256 and PC. -/
theorem fetchAboveTheTopFaults : Obligations.FetchAboveTheTopFaults := by
  intro s hr h
  have haddr : max 256 s.pc.toNat = if s.pc.toNat < 256 then 256 else s.pc.toNat := by
    split <;> omega
  rw [step_of_gt hr h, haddr]
  rfl

/-- Settles O18: stopped, out of range, known or unknown, the step has its answer. -/
theorem everyStepAnswersANextState : Obligations.EveryStepAnswersANextState := by
  intro s
  by_cases hstop : s.stopped = true
  · exact ⟨s, step_of_stopped hstop⟩
  · have hr := State.running_of_not_stopped hstop
    by_cases hf : s.CanFetch
    · obtain ⟨i, hd, -⟩ | ⟨hop, -⟩ := decode_cases (s.byteAt 0) (s.byteAt 1) (s.byteAt 2)
      · rw [step_of_decode hr hf hd]
        exact exec_answers i s
      · exact ⟨_, step_of_unknown hr hf hop⟩
    · exact ⟨_, step_of_gt hr (Nat.not_le.mp hf)⟩

/-! ## The placed fetch word -/

theorem withFetchWord_eq {s : State} (hf : s.CanFetch) (nbits w : Nat) :
    s.withFetchWord nbits w = { s with mem := s.mem.place s.pc.toNat (wordBytes (w % 2 ^ nbits)) } := if_pos hf

theorem withFetchWord_byteAt {s : State} (hf : s.CanFetch) (hwf : s.mem.wf = true) (nbits w : Nat) {k : Nat}
    (hk : k < 3) : (s.withFetchWord nbits w).byteAt k = byteOfWord (w % 2 ^ nbits) k := by
  have hfit : s.pc.toNat + 3 ≤ Config.memSize := Nat.add_le_add_right hf 3
  have hread := Memory.read_place hwf (wordBytes (w % 2 ^ nbits)) s.pc.toNat (s.pc.toNat + k) hfit
  rw [if_pos (Nat.le_add_right _ k), Nat.add_sub_cancel_left] at hread
  rw [withFetchWord_eq hf, State.byteAt, hread]
  match k, hk with
  | 0, _ | 1, _ | 2, _ => rfl

theorem decode_of_decodeTableWord {nbits w : Nat} {i : Instr} (h : decodeTableWord nbits w = some i) :
    decode (byteOfWord (w % 2 ^ nbits) 0) (byteOfWord (w % 2 ^ nbits) 1) (byteOfWord (w % 2 ^ nbits) 2) = .ok i := by
  unfold decodeTableWord at h
  split at h
  · next hd => rw [hd, Option.some.inj h]
  · cases h

/-- Settles O13: the three bytes at PC are the word's, and those are the bytes `decodeTableWord` decodes. -/
theorem placedFetchWordRuns : Obligations.PlacedFetchWordRuns := by
  intro s nbits w i hr hf hwf hd
  have heq := withFetchWord_eq hf nbits w
  have hr' : (s.withFetchWord nbits w).Running := by rwa [heq]
  have hf' : (s.withFetchWord nbits w).CanFetch := by rwa [heq]
  refine ⟨step_of_decode hr' hf' ?_, by rw [heq]⟩
  simp only [withFetchWord_byteAt hf hwf nbits w, decode_of_decodeTableWord hd, Nat.reduceLT]

/-! ## Faults -/

theorem State.fault_ne_some {s : State} (h : s.fault = none) {f : Fault} : s.fault ≠ some f := by
  rw [h]
  exact nofun

/-- Settles O20: only the two fault entries set FAULT, and they write nothing else. -/
theorem faultEntryChangesNothingElse : Obligations.FaultEntryChangesNothingElse := by
  intro s t f hs h ht
  obtain ⟨-, rfl⟩ | ⟨-, -, rfl⟩ | ⟨-, -, i, -, hexec⟩ | ⟨-, -, -, rfl⟩ := step_cases h
  case inl => exact absurd ht (State.fault_ne_some hs)
  case inr.inl =>
    cases ht
    rfl
  case inr.inr.inl =>
    obtain ⟨bad, -, rfl⟩ | hc := exec_cases hexec
    · cases ht
      rfl
    · exact absurd (hc.fault_eq.symm.trans ht) (State.fault_ne_some hs)
  case inr.inr.inr =>
    rw [reportInvalid_eq] at ht
    exact absurd ht (State.fault_ne_some hs)

/-- Settles O21: forward from the outcomes of a step, backward because each condition determines the step. -/
theorem stepFaultsExactlyOn : Obligations.StepFaultsExactlyOn := by
  intro s t f hr h
  constructor
  · intro ht
    obtain ⟨hpc, rfl⟩ | ⟨hf, i, bad, hd, hbad, rfl⟩ | ⟨-, i, -, hc⟩ | ⟨-, -, rfl⟩ := step_outcomes hr h
    · exact .inl ⟨hpc, (Option.some.inj ht).symm⟩
    · exact .inr ⟨hf, i, bad, hd, hbad, (Option.some.inj ht).symm⟩
    · exact absurd (hc.fault_eq.symm.trans ht) (State.fault_ne_some hr.2)
    · rw [reportInvalid_eq] at ht
      exact absurd ht (State.fault_ne_some hr.2)
  · rintro (⟨hpc, rfl⟩ | ⟨hf, i, bad, hd, hbad, rfl⟩)
    · cases h.symm.trans (step_of_gt hr hpc)
      rfl
    · cases h.symm.trans ((step_of_decode hr hf hd).trans (exec_of_badOperand hbad))
      rfl

/-! ## Runs -/

theorem run_of_stopped {s : State} (h : s.stopped = true) (n : Nat) : Host.Core.run Sys2Proof.core n s = .next s := by
  induction n with
  | zero => exact run_core_zero s
  | succ n ih => rw [run_core_succ n (step_of_stopped h), ih]

/-- Settles O17. -/
theorem stoppedMachineNeverChanges : Obligations.StoppedMachineNeverChanges :=
  fun s n h => run_of_stopped ((s.stopped_eq_true_iff).mpr h) n

/-- Settles O15, by induction on the number of steps: each leaves a state that differs only in OUT, so it fetches the same
byte again. -/
theorem unknownOpcodeWithBitFourHangs : Obligations.UnknownOpcodeWithBitFourHangs := by
  intro s n hr hf hop hbit
  induction n generalizing s with
  | zero => simp [run_core_zero]
  | succ n ih =>
    have hstep := step_of_unknown hr hf hop
    rw [reportInvalid_eq, if_pos hbit] at hstep
    refine (run_core_succ n hstep).trans ((ih { s with out := s.out ++ [_] } hr hf hop hbit).trans ?_)
    simp [List.replicate_succ, State.byteAt]

/-- Settles O27. -/
theorem hltClearsRunAndAdvances : Obligations.HltClearsRunAndAdvances :=
  fun _ => Completes.hlt.exec_eq

/-- Settles O28: the step executes HLT, and a halted machine takes no further step. -/
theorem hltIsFinal : Obligations.HltIsFinal := by
  intro s n hr hf hop
  have hd : decode (s.byteAt 0) (s.byteAt 1) (s.byteAt 2) = .ok .hlt := by
    rw [hop]
    rfl
  rw [run_core_succ n ((step_of_decode hr hf hd).trans Completes.hlt.exec_eq), run_of_stopped rfl]
  rfl

end Sys2Proof.Machine
end

