-- ==== Sys2Proof/Proofs/Frames.lean ====
section
/-! PROOFS. What a completed instruction leaves alone (spec/10_state.md R111, spec/20_memory.md R131), and the invariant of
every step (R122). -/

namespace Sys2Proof.Machine

/-! ## One field at a time -/

theorem regIndex_ne {a : Byte} {q : RegIndex} (h : q.val ≠ a.toNat) (ha : a.toNat < 8) : q ≠ ⟨a.toNat, ha⟩ :=
  fun e => h (congrArg Fin.val e)

theorem sp_ne {q : RegIndex} (h : q.val ≠ 7) : q ≠ 7 := fun e => h (congrArg Fin.val e)

theorem State.incSp_reg_of_ne (s : State) {q : RegIndex} (h : q ≠ 7) : s.incSp.reg q = s.reg q :=
  s.reg_setReg_of_ne _ h

theorem State.decSp_reg_of_ne (s : State) {q : RegIndex} (h : q ≠ 7) : s.decSp.reg q = s.reg q :=
  s.reg_setReg_of_ne _ h

/-- R111, "Writes". -/
theorem Completes.reg_eq {s t : State} {i : Instr} (h : Completes s i t) {q : RegIndex} (hq : q.val ∉ i.writesRegs) :
    t.reg q = s.reg q := by
  cases h with
  | prn | hlt | cmp | jmp | jeqTaken | jeqNotTaken | jneTaken | jneNotTaken => rfl
  | ldi ha => exact s.reg_setReg_of_ne _ (regIndex_ne (List.ne_of_not_mem_cons hq) ha)
  | add ha | mul ha | and ha | or ha | xor ha =>
    exact s.reg_setReg_of_ne _ (regIndex_ne (List.ne_of_not_mem_cons hq) ha)
  | push | call => exact s.decSp_reg_of_ne (sp_ne (List.ne_of_not_mem_cons hq))
  | ret => exact s.incSp_reg_of_ne (sp_ne (List.ne_of_not_mem_cons hq))
  | pop ha =>
    have hq7 := List.ne_of_not_mem_cons (List.not_mem_of_not_mem_cons hq)
    rw [State.setPc_reg, State.incSp_reg_of_ne _ (sp_ne hq7),
      State.reg_setReg_of_ne _ _ (regIndex_ne (List.ne_of_not_mem_cons hq) ha)]

/-- R131: memory is as it was, or the instruction stores one byte at the decremented SP. -/
theorem Completes.mem_cases {s t : State} {i : Instr} (h : Completes s i t) :
    t.mem = s.mem ∨ (i.stores = true ∧ ∃ v, t.mem = s.mem.write s.pushAddr.toNat v) := by
  cases h with
  | push | call => exact .inr ⟨rfl, _, rfl⟩
  | ldi | prn | hlt | add | mul | and | or | xor | pop | ret | cmp | jmp | jeqTaken | jeqNotTaken | jneTaken
  | jneNotTaken => exact .inl rfl

theorem Completes.out_cases {s t : State} {i : Instr} (h : Completes s i t) : t.out = s.out ∨ ∃ a, i = .prn a := by
  cases h with
  | prn => exact .inr ⟨_, rfl⟩
  | ldi | hlt | add | mul | and | or | xor | push | pop | call | ret | cmp | jmp | jeqTaken | jeqNotTaken | jneTaken
  | jneNotTaken => exact .inl rfl

theorem Completes.run_cases {s t : State} {i : Instr} (h : Completes s i t) : t.run = s.run ∨ i = .hlt := by
  cases h with
  | hlt => exact .inr rfl
  | ldi | prn | add | mul | and | or | xor | push | pop | call | ret | cmp | jmp | jeqTaken | jeqNotTaken | jneTaken
  | jneNotTaken => exact .inl rfl

theorem Completes.flPattern {s t : State} {i : Instr} (h : Completes s i t) (hfl : flPattern s.fl = true) :
    flPattern t.fl = true := by
  cases h with
  | cmp =>
    rw [State.setPc_fl, State.setFl_fl, compareFlags]
    split_ifs <;> rfl
  | ldi | prn | hlt | add | mul | and | or | xor | push | pop | call | ret | jmp | jeqTaken | jeqNotTaken | jneTaken
  | jneNotTaken => exact hfl

theorem pcPlus_le {pc : PcWord} {n : Nat} (hpc : pc.toNat ≤ 253) (hn : n ≤ 4) : (pcPlus pc n).toNat ≤ 257 := by
  rw [pcPlus_toNat (by omega)]
  omega

theorem pcOfByte_le (v : Byte) : (pcOfByte v).toNat ≤ 257 := by
  rw [pcOfByte_toNat]
  omega

theorem Completes.pc_le {s t : State} {i : Instr} (h : Completes s i t) (hf : s.CanFetch) : t.pc.toNat ≤ 257 := by
  cases h with
  | call | ret | jmp | jeqTaken | jneTaken => exact pcOfByte_le _
  | ldi | prn | hlt | add | mul | and | or | xor | push | pop | cmp | jeqNotTaken | jneNotTaken =>
    exact pcPlus_le hf (by decide)

theorem Completes.mem_wf {s t : State} {i : Instr} (h : Completes s i t) (hwf : s.mem.wf = true) : t.mem.wf = true := by
  obtain hm | ⟨-, v, hm⟩ := h.mem_cases
  · rwa [hm]
  · rw [hm]
    exact Memory.wf_write v hwf s.pushAddr.isLt

/-- Settles O47, clause by clause from the frame of a completion; a fault leaves everything but FAULT. -/
theorem execFrame : Obligations.ExecFrame := by
  intro i s t h
  obtain ⟨bad, hbad, rfl⟩ | hc := exec_cases h
  · exact ⟨fun _ _ => rfl, fun _ _ => rfl, fun hne => absurd rfl hne, fun hne => absurd rfl hne,
      fun _ => ⟨bad, hbad⟩⟩
  · refine ⟨fun q hq => hc.reg_eq hq, fun hns c => ?_, hc.out_cases.resolve_left, hc.run_cases.resolve_left,
      fun hne => absurd hc.fault_eq hne⟩
    obtain hm | ⟨hst, -⟩ := hc.mem_cases
    · rw [hm]
    · cases hns.symm.trans hst

/-- Settles O45: a completed HLT is the one outcome of a step that writes RUN. -/
theorem onlyHltWritesRun : Obligations.OnlyHltWritesRun := by
  intro s t h hne
  obtain ⟨-, rfl⟩ | ⟨-, -, rfl⟩ | ⟨hr, -, i, hd, hexec⟩ | ⟨-, -, -, rfl⟩ := step_cases h
  case inl => exact absurd rfl hne
  case inr.inl => exact absurd rfl hne
  case inr.inr.inl =>
    obtain ⟨bad, -, rfl⟩ | hc := exec_cases hexec
    · exact absurd rfl hne
    · obtain rfl := hc.run_cases.resolve_left hne
      cases hc
      exact ⟨hr.1, (opcodeOf_of_decode hd).symm, rfl⟩
  case inr.inr.inr => exact absurd (by rw [reportInvalid_eq]) hne

theorem opcodeOf_of_stores {i : Instr} (h : i.stores = true) : opcodeOf i = 0x45 ∨ opcodeOf i = 0x50 := by
  cases i with
  | push => exact .inl rfl
  | call => exact .inr rfl
  | ldi | prn | hlt | add | mul | and | or | xor | pop | ret | cmp | jmp | jeq | jne => cases h

/-- Settles O46: a step keeps memory, or writes the one byte at the decremented SP. -/
theorem onlyPushAndCallWriteMemory : Obligations.OnlyPushAndCallWriteMemory := by
  intro s t c hwf h hne
  obtain ⟨-, rfl⟩ | ⟨-, -, rfl⟩ | ⟨-, -, i, hd, hexec⟩ | ⟨-, -, -, rfl⟩ := step_cases h
  case inl => exact absurd rfl hne
  case inr.inl => exact absurd rfl hne
  case inr.inr.inl =>
    obtain ⟨bad, -, rfl⟩ | hc := exec_cases hexec
    · exact absurd rfl hne
    · obtain hm | ⟨hst, v, hm⟩ := hc.mem_cases
      · exact absurd (by rw [hm]) hne
      · refine ⟨?_, opcodeOf_of_decode hd ▸ opcodeOf_of_stores hst⟩
        by_contra hc'
        refine hne ?_
        rw [hm, State.pushAddr, spDec_eq, Memory.read_write_of_ne hwf v hc']
  case inr.inr.inr => exact absurd (by rw [reportInvalid_eq]) hne

/-! ## The invariant -/

theorem State.Inv.takeFault {s : State} (h : s.Inv) {f : Fault} (hrun : s.run = true)
    (hex : faultExplained s.pc (some f) = true) : (s.takeFault f).Inv where
  mem_canonical := h.mem_canonical
  fl_pattern := h.fl_pattern
  pc_bound := h.pc_bound
  halted_not_faulted hstop := by cases hstop.symm.trans hrun
  fault_explained := hex

/-- The fields that a step without a fault has to keep. -/
theorem State.Inv.of_no_fault {t : State} (hmem : t.mem.wf = true) (hfl : flPattern t.fl = true)
    (hpc : t.pc.toNat ≤ 257) (hft : t.fault = none) : t.Inv where
  mem_canonical := hmem
  fl_pattern := hfl
  pc_bound := hpc
  halted_not_faulted _ := hft
  fault_explained := by
    rw [hft]
    rfl

theorem reportInvalid_pc_le {s : State} (hf : s.CanFetch) (op : Byte) : (s.reportInvalid op).pc.toNat ≤ 257 := by
  rw [State.reportInvalid, State.loopAdvance_pc]
  split
  · exact Nat.le_trans hf (by decide)
  · exact pcPlus_le hf (opLen_bounds op).2

theorem step_keeps_inv {s t : State} (hinv : s.Inv) (h : step s = .next t) : t.Inv := by
  by_cases hstop : s.stopped = true
  · cases h.symm.trans (step_of_stopped hstop)
    exact hinv
  · have hr := State.running_of_not_stopped hstop
    obtain ⟨hpc, rfl⟩ | ⟨hf, i, bad, -, hbad, rfl⟩ | ⟨hf, i, -, hc⟩ | ⟨hf, -, rfl⟩ := step_outcomes hr h
    · exact hinv.takeFault hr.1 (decide_eq_true ⟨hpc, rfl⟩)
    · exact hinv.takeFault hr.1 (decide_eq_true ⟨hf, badOperand_gt hbad⟩)
    · exact .of_no_fault (hc.mem_wf hinv.mem_canonical) (hc.flPattern hinv.fl_pattern) (hc.pc_le hf)
        (hc.fault_eq.trans hr.2)
    · refine .of_no_fault ?_ ?_ (reportInvalid_pc_le hf _) ?_ <;> rw [reportInvalid_eq]
      · exact hinv.mem_canonical
      · exact hinv.fl_pattern
      · exact hr.2

/-- Settles O42, by the outcomes of a running machine's step: a fault is one that a program can cause, a completed
instruction keeps each part, a skipped byte moves PC by at most 4. -/
theorem everyStepKeepsTheInvariant : Obligations.EveryStepKeepsTheInvariant :=
  fun _ _ => step_keeps_inv

/-! ## Registers that are not read -/

theorem State.setReg_comm (s : State) {r q : RegIndex} (h : r ≠ q) (u v : Byte) :
    (s.setReg r u).setReg q v = (s.setReg q v).setReg r u := by
  have hval : r.val ≠ q.val := fun e => h (Fin.ext e)
  simp only [State.setReg, Vector.set_comm _ _ hval]

theorem State.setReg_reg_operand (s : State) {a : Byte} {q : RegIndex} (v : Byte) (hq : q.val ≠ a.toNat)
    (ha : a.toNat < 8) : (s.setReg q v).reg ⟨a.toNat, ha⟩ = s.reg ⟨a.toNat, ha⟩ :=
  s.reg_setReg_of_ne v (regIndex_ne hq ha).symm

theorem State.setReg_decSp (s : State) {q : RegIndex} (v : Byte) (hq : q ≠ 7) :
    (s.setReg q v).decSp = s.decSp.setReg q v := by
  rw [State.decSp_eq, s.reg_setReg_of_ne v hq.symm, State.decSp_eq, State.setReg_comm _ hq.symm]

theorem State.setReg_incSp (s : State) {q : RegIndex} (v : Byte) (hq : q ≠ 7) :
    (s.setReg q v).incSp = s.incSp.setReg q v := by
  rw [State.incSp_eq, s.reg_setReg_of_ne v hq.symm, State.incSp_eq, State.setReg_comm _ hq.symm]

theorem State.setReg_pushAddr (s : State) {q : RegIndex} (v : Byte) (hq : q ≠ 7) :
    (s.setReg q v).pushAddr = s.pushAddr := by
  rw [State.pushAddr_eq, s.reg_setReg_of_ne v hq.symm, State.pushAddr_eq]

theorem State.setReg_stackTop (s : State) {q : RegIndex} (v : Byte) (hq : q ≠ 7) :
    (s.setReg q v).stackTop = s.stackTop := by
  rw [State.stackTop_eq, s.reg_setReg_of_ne v hq.symm, State.setReg_mem, State.stackTop_eq]

/-- Two completions of one instruction from states that differ in an unread register `q` differ in `q` only (R111). -/
theorem Completes.eq_setReg_of_unread {s t u : State} {i : Instr} {q : RegIndex} {v : Byte}
    (hread : q.val ∉ i.readsRegs s.flagE) (hwrite : q.val ∉ i.writesRegs) (h : Completes s i t)
    (hu : Completes (s.setReg q v) i u) : u = t.setReg q v := by
  cases h with
  | hlt =>
    cases hu
    rfl
  | ldi ha =>
    cases hu
    rw [State.setReg_comm _ (regIndex_ne (List.ne_of_not_mem_cons hwrite) ha)]
    rfl
  | prn ha | jmp ha =>
    cases hu
    rw [s.setReg_reg_operand v (List.ne_of_not_mem_cons hread) ha]
    rfl
  | add ha hb | mul ha hb | and ha hb | or ha hb | xor ha hb =>
    have hqa := List.ne_of_not_mem_cons hread
    have hqb := List.ne_of_not_mem_cons (List.not_mem_of_not_mem_cons hread)
    cases hu
    rw [s.setReg_reg_operand v hqa ha, s.setReg_reg_operand v hqb hb, State.setReg_comm _ (regIndex_ne hqa ha)]
    rfl
  | cmp ha hb =>
    have hqa := List.ne_of_not_mem_cons hread
    have hqb := List.ne_of_not_mem_cons (List.not_mem_of_not_mem_cons hread)
    cases hu
    rw [s.setReg_reg_operand v hqa ha, s.setReg_reg_operand v hqb hb]
    rfl
  | push ha | call ha =>
    have hq7 := sp_ne (List.ne_of_not_mem_cons hread)
    have hqa := List.ne_of_not_mem_cons (List.not_mem_of_not_mem_cons hread)
    cases hu
    rw [s.setReg_decSp v hq7, s.setReg_pushAddr v hq7, s.decSp.setReg_reg_operand v hqa ha]
    rfl
  | pop ha =>
    have hq7 := sp_ne (List.ne_of_not_mem_cons hread)
    have hqa := regIndex_ne (List.ne_of_not_mem_cons hwrite) ha
    cases hu
    rw [s.setReg_stackTop v hq7, ← State.setReg_comm _ hqa.symm, State.setReg_incSp _ v hq7]
    rfl
  | ret =>
    have hq7 := sp_ne (List.ne_of_not_mem_cons hread)
    cases hu
    rw [s.setReg_stackTop v hq7, s.setReg_incSp v hq7]
    rfl
  | @jeqTaken a hE ha | @jneTaken a hE ha =>
    have hqa : q.val ≠ a.toNat := by simpa [Instr.readsRegs, hE] using hread
    cases hu
    · rw [s.setReg_reg_operand v hqa ha]
      rfl
    · next hE' => cases hE.symm.trans hE'
  | jeqNotTaken hE | jneNotTaken hE =>
    cases hu
    · next hE' _ => cases hE.symm.trans hE'
    · rfl

/-- Settles O48: with a bad operand both runs take the same fault, otherwise both complete alike. -/
theorem unreadRegisterHasNoInfluence : Obligations.UnreadRegisterHasNoInfluence := by
  intro i s t q v hread hwrite h
  obtain ⟨bad, hbad, rfl⟩ | hc := exec_cases h
  · exact exec_of_badOperand hbad
  · obtain ⟨u, hu⟩ := exists_completes (s := s.setReg q v) hc.badOperand_eq
    rw [hu.exec_eq, hc.eq_setReg_of_unread hread hwrite hu]

end Sys2Proof.Machine
end

