-- ==== Sys2Proof/Proofs/Instructions.lean ====
section
/-! PROOFS. The instructions one by one (spec/41_load_print_halt.md, 42_alu.md, 43_stack.md, 44_control_transfer.md): each
statement reads the fields of the instruction's completion. -/

namespace Sys2Proof.Machine

/-! ## Instructions that write one register -/

/-- A completion of the shape "one register, then PC" is `WritesOneReg`. -/
theorem Completes.writesOneReg {s : State} {i : Instr} {r : RegIndex} {v : Byte} {n : Nat}
    (h : Completes s i ((s.setReg r v).setPc (pcPlus s.pc n))) : WritesOneReg i s r v (BitVec.ofNat 9 n) :=
  ⟨_, h.exec_eq, s.reg_setReg_self r v, fun _ hq => s.reg_setReg_of_ne v hq, rfl⟩

/-- Settles O25. -/
theorem ldiWritesTheImmediate : Obligations.LdiWritesTheImmediate :=
  fun _ _ _ ha => (Completes.ldi ha).writesOneReg

/-- Settles O26. -/
theorem prnEmitsTheRegister : Obligations.PrnEmitsTheRegister :=
  fun _ _ ha => (Completes.prn ha).exec_eq

/-- Settles O29: the witnesses are the sum and the product that `wrap8` reduces. -/
theorem addAndMulAreModulo256 : Obligations.AddAndMulAreModulo256 :=
  fun _ _ _ ha hb => ⟨_, _, BitVec.toNat_ofNat _ 8, BitVec.toNat_ofNat _ 8, (Completes.add ha hb).writesOneReg,
    (Completes.mul ha hb).writesOneReg⟩

/-- Settles O30. -/
theorem andOrXorAreBitwise : Obligations.AndOrXorAreBitwise :=
  fun _ _ _ ha hb => ⟨_, _, _, fun _ _ => ⟨BitVec.getLsbD_and, BitVec.getLsbD_or, BitVec.getLsbD_xor⟩,
    (Completes.and ha hb).writesOneReg, (Completes.or ha hb).writesOneReg, (Completes.xor ha hb).writesOneReg⟩

/-! ## CMP and the ALU's tags -/

theorem compareFlags_of_eq {x y : Byte} (h : x.toNat = y.toNat) : compareFlags x y = flEqual :=
  if_pos (BitVec.eq_of_toNat_eq h)

theorem compareFlags_of_gt {x y : Byte} (h : y.toNat < x.toNat) : compareFlags x y = flGreater := by
  have hne : x ≠ y := fun e => h.ne' (congrArg BitVec.toNat e)
  rw [compareFlags, if_neg hne, if_pos h]

theorem compareFlags_of_lt {x y : Byte} (h : x.toNat < y.toNat) : compareFlags x y = flLess := by
  have hne : x ≠ y := fun e => h.ne (congrArg BitVec.toNat e)
  rw [compareFlags, if_neg hne, if_neg h.not_gt]

/-- Settles O31: the pattern by the three ways two numbers compare. -/
theorem cmpWritesThePattern : Obligations.CmpWritesThePattern :=
  fun _ _ _ ha hb => ⟨_, (Completes.cmp ha hb).exec_eq, compareFlags_of_eq, compareFlags_of_gt, compareFlags_of_lt⟩

/-- Settles O24: the six tags have a result, and 6 and 7 are the only other ones of three bits. -/
theorem aluIsUnsupportedOnlyOutsideTheSixTags : Obligations.AluIsUnsupportedOnlyOutsideTheSixTags := by
  intro tag va vb
  constructor
  · intro h
    by_contra hle
    exact alu_supported (Nat.not_lt.mp hle) va vb h
  · intro h
    have htag : tag = 6 ∨ tag = 7 := by
      have hlt : tag.toNat = 6 ∨ tag.toNat = 7 := by omega
      simpa [← BitVec.toNat_inj] using hlt
    obtain rfl | rfl := htag <;> rfl

/-! ## The stack -/

theorem State.decSp_sp (s : State) : s.decSp.sp = s.sp - 1 := by
  rw [State.decSp, State.setSp_sp, spDec_eq]

theorem State.incSp_sp (s : State) : s.incSp.sp = s.sp + 1 := by
  rw [State.incSp, State.setSp_sp, spInc_eq]

theorem State.pushAddr_eq_sub (s : State) : s.pushAddr = s.sp - 1 := spDec_eq s.sp

theorem State.stackTop_eq_read (s : State) : s.stackTop = s.mem.read s.sp.toNat := rfl

/-- An operand byte names R7 exactly when it is 7. -/
theorem regIndex_eq_sp_iff {a : Byte} (ha : a.toNat < 8) : (⟨a.toNat, ha⟩ : RegIndex) = 7 ↔ a = 7 := by
  rw [← BitVec.toNat_inj, ← Fin.val_inj]
  rfl

/-- The operand of PUSH and CALL is read after the decrement (D15). -/
theorem State.decSp_reg_operand (s : State) {a : Byte} (ha : a.toNat < 8) :
    s.decSp.reg ⟨a.toNat, ha⟩ = if a = 7 then s.sp - 1 else s.reg ⟨a.toNat, ha⟩ := by
  rw [State.decSp_eq, State.reg_setReg, spDec_eq, if_congr (regIndex_eq_sp_iff ha) rfl rfl]
  rfl

/-- Memory after a push of `v`: `v` at the decremented SP, every other byte as before (R182). -/
theorem State.push_mem_read {s : State} (hwf : s.mem.wf = true) (v : Byte) (c : Nat) :
    (s.decSp.store s.pushAddr v).mem.read c = if c = (s.sp - 1).toNat then v else s.mem.read c := by
  rw [State.store_mem, State.pushAddr_eq_sub]
  exact Memory.read_write hwf _ v c

theorem State.push_mem_read_sp {s : State} (hwf : s.mem.wf = true) (v : Byte) :
    (s.decSp.store s.pushAddr v).mem.read s.decSp.sp.toNat = v := by
  rw [State.push_mem_read hwf, State.decSp_sp, if_pos rfl]

theorem State.push_mem_read_of_ne {s : State} (hwf : s.mem.wf = true) (v : Byte) {c : Nat} (hc : c ≠ (s.sp - 1).toNat) :
    (s.decSp.store s.pushAddr v).mem.read c = s.mem.read c := by
  rw [State.push_mem_read hwf, if_neg hc]

/-- Settles O33. -/
theorem pushStoresAtTheDecrementedSp : Obligations.PushStoresAtTheDecrementedSp := by
  intro a s ha hwf
  have hc := Completes.push (s := s) ha
  exact ⟨_, hc.exec_eq, s.decSp_sp, fun _ hq => s.decSp_reg_of_ne hq,
    (State.push_mem_read_sp hwf _).trans (s.decSp_reg_operand ha), fun _ hne => State.push_mem_read_of_ne hwf _ hne,
    hc.mem_wf hwf, rfl⟩

/-- Settles O36: the stored byte is the low byte of the return address, at every PC. -/
theorem callLinksThroughTheStack : Obligations.CallLinksThroughTheStack := by
  intro a s ha hwf
  have hc := Completes.call (s := s) ha
  refine ⟨_, hc.exec_eq, s.decSp_sp, fun _ hq => s.decSp_reg_of_ne hq, ?_, ?_,
    fun _ hne => State.push_mem_read_of_ne hwf _ hne, hc.mem_wf hwf, rfl⟩
  · rw [State.setPc_pc, pcOfByte_toNat, s.decSp_reg_operand ha]
  · have hread := State.push_mem_read_sp hwf (returnAddress s.pc)
    have hlow : (returnAddress s.pc).toNat = (s.pc.toNat + 2) % 256 := by
      simp [returnAddress, pcPlus]
    exact (congrArg BitVec.toNat hread).trans hlow

theorem State.pop_sp (s : State) {a : Byte} (ha : a.toNat < 8) :
    (s.setReg ⟨a.toNat, ha⟩ s.stackTop).incSp.sp = if a = 7 then s.mem.read s.sp.toNat + 1 else s.sp + 1 := by
  rw [State.incSp_sp, State.sp_eq, State.reg_setReg, if_congr (eq_comm.trans (regIndex_eq_sp_iff ha)) rfl rfl,
    State.stackTop_eq_read]
  split <;> rfl

theorem State.pop_reg_dest (s : State) {a : Byte} (ha : a.toNat < 8) (h7 : a ≠ 7) :
    (s.setReg ⟨a.toNat, ha⟩ s.stackTop).incSp.reg ⟨a.toNat, ha⟩ = s.mem.read s.sp.toNat := by
  rw [State.incSp_reg_of_ne _ (mt (regIndex_eq_sp_iff ha).mp h7), State.reg_setReg_self, State.stackTop_eq_read]

theorem State.pop_reg_of_ne (s : State) {a : Byte} (ha : a.toNat < 8) {q : RegIndex} (h7 : q ≠ 7)
    (hq : q.val ≠ a.toNat) : (s.setReg ⟨a.toNat, ha⟩ s.stackTop).incSp.reg q = s.reg q := by
  rw [State.incSp_reg_of_ne _ h7, s.reg_setReg_of_ne _ (regIndex_ne hq ha)]

/-- Settles O34. -/
theorem popLoadsThenIncrements : Obligations.PopLoadsThenIncrements :=
  fun _ s ha => ⟨_, (Completes.pop ha).exec_eq, s.pop_sp ha, s.pop_reg_dest ha, fun _ => s.pop_reg_of_ne ha, rfl⟩

/-- Settles O35: the POP reads the byte the PUSH wrote, and its increment undoes the decrement. -/
theorem pushThenPopRestores : Obligations.PushThenPopRestores := by
  intro a b s ha hb hb7 hwf
  obtain ⟨t, hpush, htsp, htreg, httop, -, -, -⟩ := pushStoresAtTheDecrementedSp a s ha hwf
  obtain ⟨u, hpop, husp, hudest, hureg, -⟩ := popLoadsThenIncrements b t hb
  refine ⟨t, u, hpush, hpop, (hudest hb7).trans httop, fun q hq => ?_⟩
  by_cases hq7 : q = 7
  · subst hq7
    exact husp.trans (by rw [if_neg hb7, htsp, BitVec.sub_add_cancel, State.sp_eq])
  · rw [hureg q hq7 hq, htreg q hq7]

/-! ## Control transfer -/

/-- Settles O37. -/
theorem retJumpsToTheStackedByte : Obligations.RetJumpsToTheStackedByte :=
  fun s => ⟨_, Completes.ret.exec_eq, pcOfByte_toNat _, s.incSp_sp, fun _ hq => s.incSp_reg_of_ne hq, rfl⟩

/-- Settles O39. -/
theorem jmpSetsPc : Obligations.JmpSetsPc :=
  fun _ _ ha => ⟨_, (Completes.jmp ha).exec_eq, pcOfByte_toNat _, rfl⟩

/-- Settles O40. -/
theorem jeqFollowsE : Obligations.JeqFollowsE :=
  fun _ _ => ⟨fun hE ha => ⟨_, (Completes.jeqTaken hE ha).exec_eq, pcOfByte_toNat _, rfl⟩,
    fun hE => (Completes.jeqNotTaken hE).exec_eq⟩

/-- Settles O41. -/
theorem jneFollowsNotE : Obligations.JneFollowsNotE :=
  fun _ _ => ⟨fun hE ha => ⟨_, (Completes.jneTaken hE ha).exec_eq, pcOfByte_toNat _, rfl⟩,
    fun hE => (Completes.jneNotTaken hE).exec_eq⟩

/-- Settles O38: the CALL leaves a running machine at the RET, whose byte it has not overwritten; the RET reads the return
address, and its increment undoes the decrement. -/
theorem callThenRetReturns : Obligations.CallThenRetReturns := by
  intro s ha hr hf hwf hop h7 hpc hne hret
  have hd : decode (s.byteAt 0) (s.byteAt 1) (s.byteAt 2) = .ok (.call (s.byteAt 1)) := by
    rw [hop]
    rfl
  obtain ⟨t, hcall, htsp, htreg, htpc, httop, htmem, -, ht⟩ := callLinksThroughTheStack (s.byteAt 1) s ha hwf
  rw [if_neg h7] at htpc
  have hrt : t.Running := by rwa [ht]
  have hft : t.CanFetch := by rwa [State.CanFetch, htpc]
  have hopt : t.byteAt 0 = 0x11 := by
    have htarget : t.pc.toNat ≠ (s.sp - 1).toNat := fun e => hne (BitVec.eq_of_toNat_eq (htpc.symm.trans e))
    rw [State.byteAt, Nat.add_zero, htmem _ htarget, htpc, hret]
  have hdt : decode (t.byteAt 0) (t.byteAt 1) (t.byteAt 2) = .ok .ret := by
    rw [hopt]
    rfl
  obtain ⟨u, hexec, hupc, husp, hureg, hu⟩ := retJumpsToTheStackedByte t
  have hregs : ∀ q, u.reg q = s.reg q := by
    intro q
    by_cases hq7 : q = 7
    · subst hq7
      exact husp.trans (by rw [htsp, BitVec.sub_add_cancel, State.sp_eq])
    · rw [hureg q hq7, htreg q hq7]
  have hrun : Host.Core.run Sys2Proof.core 2 s = .next u :=
    (run_core_succ 1 ((step_of_decode hr hf hd).trans hcall)).trans
      (run_core_succ 0 ((step_of_decode hrt hft hdt).trans hexec))
  have hf' : s.pc.toNat ≤ 253 := hf
  have hupc' : u.pc.toNat = s.pc.toNat + 2 := by
    rw [hupc, httop, Nat.mod_eq_of_lt (by omega)]
  refine ⟨u, hrun, hupc', hregs, ?_, fun c hc => ?_⟩
  · have hr' := State.regs_ext hregs
    rw [hu, ht] at hr' ⊢
    rw [← hr']
  · rw [hu]
    exact htmem c hc

end Sys2Proof.Machine
end

