-- ==== Sys2Proof/Proofs/Blocks.lean ====
section
/-! PROOFS. The eight blocks against the step (spec/48_block_interfaces.md R203 to R205). -/

namespace Sys2Proof.Machine

/-! ## The composition, branch by branch -/

/-- Enable of read port A (R197, R204). -/
def Control.raEnabled (c : Control) (e : Bool) : Bool :=
  decide (c.ra = .on) || (decide (c.ra = .taken) && pcTaken c.pcSel e)

/-- The index fault of a step (R197). -/
def Control.idxFault (c : Control) (e : Bool) (a b : Byte) : Option Byte :=
  Machine.idxFault (c.raEnabled e) c.rb (decide (c.w ≠ .off)) a b

/-- The registers that the read ports see: a decrement of SP comes first (R205). -/
def Control.regsRead (c : Control) (s : State) : Vector Byte 8 :=
  if c.sp = .dec then s.regs.set 7 (spNext .dec s.sp) else s.regs

/-- Read port A of a step (R197). -/
def Control.portA (c : Control) (s : State) (a : Byte) : Byte := readPort (c.regsRead s) (c.raEnabled s.flagE) a

/-- Read port B of a step (R197). -/
def Control.portB (c : Control) (s : State) (b : Byte) : Byte := readPort (c.regsRead s) c.rb b

/-- The state after phase 3, with the ALU's result and FL (R205). -/
def Control.committed (c : Control) (s : State) (op a b res fl : Byte) : State :=
  commit s c ⟨op, a, b⟩ (c.portA s a) (if c.mem = .read then s.mem.read (stackAddr .inc s.sp).toNat else 0) res fl

/-- The pulses of a step that has passed its checks (R203). -/
def Control.pulses (c : Control) (s : State) (op a : Byte) : Pulses :=
  ⟨if c.print then some (c.portA s a) else none, if c.known then none else some (op, s.pc)⟩

theorem fetchBlock_eq_fetch (s : State) : fetchBlock s.pc s.mem = fetch s := by
  by_cases h : s.pc.toNat ≤ 253
  · have h0 : ¬ 255 < s.pc.toNat := by omega
    have h1 : ¬ 255 < s.pc.toNat + 1 := by omega
    have h2 : ¬ 255 < s.pc.toNat + 2 := by omega
    simp [fetch_of_le h, fetchBlock, List.find?, h0, h1, h2]
  · have h2 : 255 < s.pc.toNat + 2 := by omega
    rw [fetch_of_gt (by omega), fetchBlock]
    by_cases h0 : 255 < s.pc.toNat
    · have hmax : max 256 s.pc.toNat = s.pc.toNat := by omega
      simp [List.find?, h0, hmax]
    · by_cases h1 : 255 < s.pc.toNat + 1
      · have hmax : max 256 s.pc.toNat = s.pc.toNat + 1 := by omega
        simp [List.find?, h0, h1, hmax]
      · have hmax : max 256 s.pc.toNat = s.pc.toNat + 2 := by omega
        simp [List.find?, h0, h1, h2, hmax]

/-- The composition's own test is `stopped` (R205). -/
theorem State.Running.not_stopped {s : State} (hr : s.Running) : (!s.run || s.fault.isSome) = false :=
  (s.stopped_eq_false_iff).mpr hr

theorem coreCycle_of_stopped {s : State} (h : s.stopped = true) : coreCycle s = (s, Pulses.quiet) := if_pos h

section Running

variable {s : State} {op a b : Byte} (hr : s.Running)
include hr

theorem coreCycle_of_fetch_fault {f : Fault} (hl : fetch s = .error f) :
    coreCycle s = (s.takeFault f, Pulses.quiet) := by
  simp only [coreCycle, State.Running.not_stopped hr, fetchBlock_eq_fetch, hl, Bool.false_eq_true, if_false]
  rfl

variable (hl : fetch s = .ok ⟨op, a, b⟩)
include hl

theorem coreCycle_of_idxFault {bad : Byte} (hbad : (decoder op).idxFault s.flagE a b = some bad) :
    coreCycle s = (s.takeFault (.regIndexOutOfRange bad), Pulses.quiet) := by
  simp only [Control.idxFault, Control.raEnabled, State.flagE] at hbad
  simp only [coreCycle, State.Running.not_stopped hr, fetchBlock_eq_fetch, hl, hbad, Bool.false_eq_true, if_false]
  rfl

variable (hok : (decoder op).idxFault s.flagE a b = none)
include hok

theorem coreCycle_of_no_alu (halu : (decoder op).aluOp = none) :
    coreCycle s = ((decoder op).committed s op a b 0 0, (decoder op).pulses s op a) := by
  simp only [Control.idxFault, Control.raEnabled, State.flagE] at hok
  simp only [coreCycle, State.Running.not_stopped hr, fetchBlock_eq_fetch, hl, hok, halu, Bool.false_eq_true, if_false]
  rfl

theorem coreCycle_of_result {tag : AluTag} {v : Byte} (halu : (decoder op).aluOp = some tag)
    (hout : alu tag ((decoder op).portA s a) ((decoder op).portB s b) = .result v) :
    coreCycle s = ((decoder op).committed s op a b v 0, (decoder op).pulses s op a) := by
  simp only [Control.idxFault, Control.raEnabled, State.flagE] at hok
  simp only [Control.portA, Control.portB, Control.regsRead, Control.raEnabled, State.flagE] at hout
  simp only [coreCycle, State.Running.not_stopped hr, fetchBlock_eq_fetch, hl, hok, halu, hout, Bool.false_eq_true, if_false]
  rfl

theorem coreCycle_of_flags {tag : AluTag} {fl : Byte} (halu : (decoder op).aluOp = some tag)
    (hout : alu tag ((decoder op).portA s a) ((decoder op).portB s b) = .flags fl) :
    coreCycle s = ((decoder op).committed s op a b 0 fl, (decoder op).pulses s op a) := by
  simp only [Control.idxFault, Control.raEnabled, State.flagE] at hok
  simp only [Control.portA, Control.portB, Control.regsRead, Control.raEnabled, State.flagE] at hout
  simp only [coreCycle, State.Running.not_stopped hr, fetchBlock_eq_fetch, hl, hok, halu, hout, Bool.false_eq_true, if_false]
  rfl

end Running

/-! ## A known opcode -/

theorem idxFault_write (a b : Byte) : idxFault false false true a b = if 7 < a.toNat then some a else none := by
  simp [idxFault]

theorem idxFault_readA (en : Bool) (a b : Byte) :
    idxFault en false false a b = if en && decide (7 < a.toNat) then some a else none := by
  simp [idxFault]

theorem idxFault_readAB (w : Bool) (a b : Byte) :
    idxFault true true w a b = if 7 < a.toNat then some a else if 7 < b.toNat then some b else none := by
  by_cases ha : 7 < a.toNat <;> simp [idxFault, ha]

/-- The register file's index fault is the instruction's first bad operand (R210). -/
theorem decoder_idxFault {op a b : Byte} {i : Instr} (hd : decode op a b = .ok i) (e : Bool) :
    (decoder op).idxFault e a b = i.badOperand e := by
  obtain rfl := opcodeOf_of_decode hd
  cases i <;> cases hd
  case hlt | ret => rfl
  case ldi | pop => exact idxFault_write a b
  case prn | push | call | jmp => exact (idxFault_readA true a b).trans (by simp [Instr.badOperand])
  case jeq | jne => exact idxFault_readA _ a b
  case add | mul | and | or | xor | cmp => exact idxFault_readAB _ a b

/-- What `prn_valid` shows when the instruction completes (R203). -/
def printedBy (i : Instr) (s : State) : Option Byte :=
  match i with
  | .prn a => (regIndex a).map s.reg
  | _ => none

theorem readPort_of_lt {a : Byte} (ha : a.toNat < 8) (s : State) :
    readPort s.regs true a = s.reg ⟨a.toNat, ha⟩ := dif_pos ⟨rfl, ha⟩

theorem setReg_eq_writePort {a : Byte} (ha : a.toNat < 8) (s : State) (v : Byte) :
    s.setReg ⟨a.toNat, ha⟩ v = { s with regs := writePort s.regs a v } := by
  rw [writePort, dif_pos ha]
  rfl

theorem coreCycle_of_completes {s t : State} {i : Instr} {op a b : Byte} (hr : s.Running)
    (hl : fetch s = .ok ⟨op, a, b⟩) (hd : decode op a b = .ok i) (hc : Completes s i t) :
    coreCycle s = ({ t with out := s.out }, ⟨printedBy i s, none⟩) := by
  have hok := (decoder_idxFault hd s.flagE).trans hc.badOperand_eq
  obtain rfl := opcodeOf_of_decode hd
  cases hc <;> cases hd <;> dsimp only [opcodeOf] at hl hok
  case ldi ha =>
    rw [coreCycle_of_no_alu hr hl hok rfl, setReg_eq_writePort ha]
    rfl
  case prn ha =>
    rw [coreCycle_of_no_alu hr hl hok rfl, printedBy, regIndex_of_lt ha, Option.map_some, ← readPort_of_lt ha]
    rfl
  case hlt =>
    rw [coreCycle_of_no_alu hr hl hok rfl]
    rfl
  case ret =>
    rw [coreCycle_of_no_alu hr hl hok rfl, State.incSp_eq, spInc_eq]
    rfl
  case add ha hb | mul ha hb | and ha hb | or ha hb | xor ha hb =>
    rw [coreCycle_of_result hr hl hok rfl rfl, setReg_eq_writePort ha, ← readPort_of_lt ha, ← readPort_of_lt hb]
    rfl
  case cmp ha hb =>
    rw [coreCycle_of_flags hr hl hok rfl rfl, ← readPort_of_lt ha, ← readPort_of_lt hb]
    rfl
  case push ha | call ha =>
    rw [coreCycle_of_no_alu hr hl hok rfl, ← readPort_of_lt ha, State.decSp_eq, State.pushAddr_eq, spDec_eq]
    rfl
  case pop ha =>
    rw [coreCycle_of_no_alu hr hl hok rfl, State.incSp_eq, spInc_eq, setReg_eq_writePort ha]
    rfl
  case jmp ha =>
    rw [coreCycle_of_no_alu hr hl hok rfl, ← readPort_of_lt ha]
    rfl
  case jeqTaken hE ha =>
    have hpc : pcNext .eq s.pc 2 (readPort s.regs s.flagE a) 0 s.flagE = pcOfByte (s.reg ⟨a.toNat, ha⟩) := by
      rw [hE, readPort_of_lt ha]
      rfl
    rw [coreCycle_of_no_alu hr hl hok rfl, ← hpc]
    rfl
  case jneTaken hE ha =>
    have hpc : pcNext .ne s.pc 2 (readPort s.regs (!s.flagE) a) 0 s.flagE = pcOfByte (s.reg ⟨a.toNat, ha⟩) := by
      rw [hE, Bool.not_false, readPort_of_lt ha]
      rfl
    rw [coreCycle_of_no_alu hr hl hok rfl, ← hpc]
    rfl
  case jeqNotTaken hE =>
    have hpc : pcNext .eq s.pc 2 (readPort s.regs s.flagE a) 0 s.flagE = pcPlus s.pc 2 := by
      rw [hE]
      rfl
    rw [coreCycle_of_no_alu hr hl hok rfl, ← hpc]
    rfl
  case jneNotTaken hE =>
    have hpc : pcNext .ne s.pc 2 (readPort s.regs (!s.flagE) a) 0 s.flagE = pcPlus s.pc 2 := by
      rw [hE]
      rfl
    rw [coreCycle_of_no_alu hr hl hok rfl, ← hpc]
    rfl

/-! ## An unknown opcode -/

theorem decoder_of_unknown {op : Byte} (h : isOpcodeByte op = false) : decoder op = controlUnknown op := by
  simp only [isOpcodeByte, Bool.or_eq_false_iff, beq_eq_false_iff_ne] at h
  simp only [decoder, h, if_false]

/-- The three length bits are the apparent length (R196). -/
theorem controlUnknown_len (op : Byte) : (controlUnknown op).len.zeroExtend 9 = BitVec.ofNat 9 (op.toNat / 64 + 1) := by
  apply BitVec.eq_of_toNat_eq
  have hop := op.isLt
  simp [controlUnknown, BitVec.toNat_add, BitVec.toNat_ushiftRight, Nat.shiftRight_eq_div_pow]
  omega

theorem pcNext_controlUnknown (op : Byte) (pc : PcWord) (reg mem : Byte) (e : Bool) :
    pcNext (controlUnknown op).pcSel pc (controlUnknown op).len reg mem e =
      if op.getLsbD 4 then pc else pc + BitVec.ofNat 9 (op.toNat / 64 + 1) := by
  rw [← controlUnknown_len, controlUnknown]
  cases op.getLsbD 4 <;> rfl

theorem coreCycle_of_unknown {s : State} {op a b : Byte} (hr : s.Running) (hl : fetch s = .ok ⟨op, a, b⟩)
    (hop : isOpcodeByte op = false) :
    coreCycle s = ({ s.reportInvalid op with out := s.out }, ⟨none, some (op, s.pc)⟩) := by
  have hdec := decoder_of_unknown hop
  have hok : (decoder op).idxFault s.flagE a b = none := by
    rw [hdec]
    rfl
  rw [coreCycle_of_no_alu hr hl hok (by rw [hdec]; rfl), reportInvalid_eq, hdec,
    ← pcNext_controlUnknown op s.pc 0 0 s.flagE]
  rfl

/-! ## The composition and the step -/

theorem Completes.out_eq {s t : State} {i : Instr} (h : Completes s i t) :
    t.out = s.out ++ (⟨printedBy i s, none⟩ : Pulses).events := by
  cases h with
  | prn ha =>
    rw [printedBy, regIndex_of_lt ha]
    rfl
  | ldi | hlt | add | mul | and | or | xor | push | pop | call | ret | cmp | jmp | jeqTaken | jeqNotTaken | jneTaken
  | jneNotTaken => exact (List.append_nil _).symm

theorem coreStep_of_coreCycle {s u : State} {p : Pulses} (h : coreCycle s = (u, p)) :
    coreStep s = { u with out := s.out ++ p.events } := by
  rw [coreStep, h]

theorem coreStep_of_quiet {s u : State} (h : coreCycle s = (u, Pulses.quiet)) (hu : u.out = s.out) : coreStep s = u := by
  rw [coreStep_of_coreCycle h, ← hu]
  exact congrArg (fun o => { u with out := o }) (List.append_nil u.out)

/-- Settles O43, outcome by outcome of the step. -/
theorem blocksComposeToTheStep : Obligations.BlocksComposeToTheStep := by
  intro s
  obtain ⟨t, ht⟩ := everyStepAnswersANextState s
  rw [ht]
  by_cases hstop : s.stopped = true
  · cases ht.symm.trans (step_of_stopped hstop)
    rw [coreStep_of_quiet (coreCycle_of_stopped hstop) rfl]
  · have hr := State.running_of_not_stopped hstop
    obtain ⟨hpc, rfl⟩ | ⟨hf, i, bad, hd, hbad, rfl⟩ | ⟨hf, i, hd, hc⟩ | ⟨hf, hop, rfl⟩ := step_outcomes hr ht
    · rw [coreStep_of_quiet (coreCycle_of_fetch_fault hr (fetch_of_gt hpc)) rfl]
    · rw [coreStep_of_quiet (coreCycle_of_idxFault hr (fetch_eq_byteAt hf) ((decoder_idxFault hd _).trans hbad)) rfl]
    · rw [coreStep_of_coreCycle (coreCycle_of_completes hr (fetch_eq_byteAt hf) hd hc), ← hc.out_eq]
    · rw [coreStep_of_coreCycle (coreCycle_of_unknown hr (fetch_eq_byteAt hf) hop), reportInvalid_eq]
      rfl

/-! ## The pulses -/

theorem printedBy_of_badOperand {i : Instr} {s : State} {bad : Byte} (h : i.badOperand s.flagE = some bad) :
    printedBy i s = none := by
  cases i with
  | prn a =>
    obtain ⟨ha, -⟩ := Option.ite_none_right_eq_some.mp h
    rw [printedBy, regIndex_of_ge ha]
    rfl
  | _ => rfl

/-- The pulses of a step that decodes a known opcode; a register fault is silent like an instruction that prints
nothing. -/
theorem pulses_of_decode {s : State} {i : Instr} (hr : s.Running) (hf : s.CanFetch)
    (hd : decode (s.byteAt 0) (s.byteAt 1) (s.byteAt 2) = .ok i) : (coreCycle s).2 = ⟨printedBy i s, none⟩ := by
  cases hbad : i.badOperand s.flagE with
  | some bad =>
    rw [coreCycle_of_idxFault hr (fetch_eq_byteAt hf) ((decoder_idxFault hd _).trans hbad), printedBy_of_badOperand hbad]
    rfl
  | none =>
    obtain ⟨t, hc⟩ := exists_completes hbad
    rw [coreCycle_of_completes hr (fetch_eq_byteAt hf) hd hc]

theorem pulses_of_unknown {s : State} (hr : s.Running) (hf : s.CanFetch) (hop : isOpcodeByte (s.byteAt 0) = false) :
    (coreCycle s).2 = ⟨none, some (s.byteAt 0, s.pc)⟩ := by
  rw [coreCycle_of_unknown hr (fetch_eq_byteAt hf) hop]

theorem printedBy_eq_some_iff {op a b : Byte} {i : Instr} (hd : decode op a b = .ok i) (s : State) (v : Byte) :
    printedBy i s = some v ↔ op = 0x47 ∧ ∃ h : a.toNat < 8, v = s.reg ⟨a.toNat, h⟩ := by
  by_cases hop : op = 0x47
  · subst hop
    cases hd
    by_cases ha : a.toNat < 8
    · rw [printedBy, regIndex_of_lt ha]
      exact ⟨fun h => ⟨rfl, ha, (Option.some.inj h).symm⟩, fun ⟨_, _, h⟩ => congrArg some h.symm⟩
    · rw [printedBy, regIndex_of_ge (by omega)]
      exact iff_of_false nofun fun ⟨_, h, _⟩ => ha h
  · refine iff_of_false ?_ fun h => hop h.1
    obtain rfl := opcodeOf_of_decode hd
    cases i with
    | prn => exact absurd rfl hop
    | _ => exact nofun

theorem events_length_of_printedBy (i : Instr) (s : State) :
    (⟨printedBy i s, none⟩ : Pulses).events.length ≤ 1 := by
  cases h : printedBy i s <;> simp [Pulses.events]

/-- At most one pulse per step (R203). -/
theorem pulses_length (s : State) : (coreCycle s).2.events.length ≤ 1 := by
  by_cases hstop : s.stopped = true
  · rw [coreCycle_of_stopped hstop]
    exact Nat.zero_le 1
  · have hr := State.running_of_not_stopped hstop
    by_cases hf : s.CanFetch
    · obtain ⟨i, hd, -⟩ | ⟨hop, -⟩ := decode_cases (s.byteAt 0) (s.byteAt 1) (s.byteAt 2)
      · rw [pulses_of_decode hr hf hd]
        exact events_length_of_printedBy i s
      · rw [pulses_of_unknown hr hf hop]
        exact Nat.le_refl 1
    · rw [coreCycle_of_fetch_fault hr (fetch_of_gt (Nat.not_le.mp hf))]
      exact Nat.zero_le 1

/-- Settles O44: OUT by the agreement with the step, the pulses by what the step decodes. -/
theorem outIsTheSequenceOfPulses : Obligations.OutIsTheSequenceOfPulses := by
  refine ⟨fun s t h => ?_, pulses_length, fun s hr hf => ?_⟩
  · cases h.symm.trans (blocksComposeToTheStep s)
    rfl
  · obtain ⟨i, hd, hop⟩ | ⟨hop, -⟩ := decode_cases (s.byteAt 0) (s.byteAt 1) (s.byteAt 2)
    · rw [pulses_of_decode hr hf hd]
      refine ⟨printedBy_eq_some_iff hd s, fun p => iff_of_false nofun fun h => ?_⟩
      cases h.1.symm.trans (hop ▸ isOpcodeByte_opcodeOf i)
    · rw [pulses_of_unknown hr hf hop]
      refine ⟨fun v => iff_of_false nofun fun h => ?_,
        fun p => ⟨fun h => ⟨hop, (Option.some.inj h).symm⟩, fun h => ?_⟩⟩
      · rw [h.1] at hop
        cases hop
      · rw [h.2]

end Sys2Proof.Machine
end

