-- ==== Sys2Proof/Proofs/ProgramCounter.lean ====
section
/-! PROOFS. PC after a completed step (spec/40_execution_cycle.md R162, R164). -/

namespace Sys2Proof.Machine

/-- An instruction whose bit 4 is clear moves PC by its length (R162). -/
theorem Completes.pc_of_clear {s t : State} {i : Instr} (h : Completes s i t) (hclear : opSetsPc (opcodeOf i) = false) :
    t.pc = pcPlus s.pc (opLen (opcodeOf i)) := by
  cases h with
  | call | ret | jmp | jeqTaken | jeqNotTaken | jneTaken | jneNotTaken => simp [opcodeOf] at hclear
  | ldi | prn | hlt | add | mul | and | or | xor | push | pop | cmp => simp [opcodeOf]

/-- The decoded instruction completes when the step sets no fault. -/
theorem completes_of_step {s t : State} {i : Instr} (hr : s.Running) (hf : s.CanFetch) (h : step s = .next t)
    (hft : t.fault = none) (hd : decode (s.byteAt 0) (s.byteAt 1) (s.byteAt 2) = .ok i) : Completes s i t := by
  obtain ⟨bad, -, rfl⟩ | hc := exec_cases ((step_of_decode hr hf hd).symm.trans h)
  · cases hft
  · exact hc

theorem reportInvalid_pc (s : State) (op : Byte) :
    (s.reportInvalid op).pc = if opSetsPc op then s.pc else pcPlus s.pc (opLen op) :=
  State.loopAdvance_pc _ op

/-- Bit 4 clear: PC moves by the apparent length, opcode known or not, and does not wrap (R162). -/
theorem step_pc_of_clear {s t : State} (hr : s.Running) (hf : s.CanFetch) (h : step s = .next t) (hft : t.fault = none)
    (hclear : opSetsPc (s.byteAt 0) = false) : t.pc.toNat = s.pc.toNat + opLen (s.byteAt 0) := by
  have hf' : s.pc.toNat ≤ 253 := hf
  have hlen := opLen_bounds (s.byteAt 0)
  rw [← pcPlus_toNat (by omega)]
  congr 1
  obtain ⟨i, hd, hop⟩ | ⟨hop, -⟩ := decode_cases (s.byteAt 0) (s.byteAt 1) (s.byteAt 2)
  · rw [← hop] at hclear ⊢
    exact (completes_of_step hr hf h hft hd).pc_of_clear hclear
  · cases h.symm.trans (step_of_unknown hr hf hop)
    rw [reportInvalid_pc, hclear]
    rfl

theorem fields_of_three_byte_opcode : ∀ op ∈ [(0x82 : Byte), 0xA0, 0xA2, 0xA8, 0xAA, 0xAB, 0xA7],
    opSetsPc op = false ∧ opLen op = 3 := by decide

theorem fields_of_two_byte_opcode : ∀ op ∈ [(0x47 : Byte), 0x45, 0x46], opSetsPc op = false ∧ opLen op = 2 := by decide

/-- Settles O19: with bit 4 clear from the loop's rule, with bit 4 set from the one instruction the byte selects. -/
theorem pcAfterACompletedStep : Obligations.PcAfterACompletedStep := by
  intro s t hr hf h hft
  have hclear := step_pc_of_clear hr hf h hft
  have hdone {i : Instr} := completes_of_step (i := i) hr hf h hft
  have hf' : s.pc.toNat ≤ 253 := hf
  have hnext : (pcPlus s.pc 2).toNat = s.pc.toNat + 2 := pcPlus_toNat (by omega)
  refine ⟨hclear, fun hop => ?three, fun hop => ?two, fun hop => ?hlt, fun hop => ?callJmp, fun hop => ?ret,
    fun hop hE => ?jeqTaken, fun hop hE => ?jeqNotTaken, fun hop hE => ?jneTaken, fun hop hE => ?jneNotTaken,
    fun hop hbit => ?unknown⟩
  case three =>
    obtain ⟨hbit, hlen⟩ := fields_of_three_byte_opcode _ hop
    rw [hclear hbit, hlen]
  case two =>
    obtain ⟨hbit, hlen⟩ := fields_of_two_byte_opcode _ hop
    rw [hclear hbit, hlen]
  case hlt =>
    rw [hclear (by rw [hop]; rfl), hop]
    rfl
  case callJmp =>
    obtain hop | hop := List.mem_pair.mp hop
    · cases hdone (i := .call (s.byteAt 1)) (by rw [hop]; rfl) with
      | call ha => exact ⟨ha, pcOfByte_toNat _⟩
    · cases hdone (i := .jmp (s.byteAt 1)) (by rw [hop]; rfl) with
      | jmp ha => exact ⟨ha, pcOfByte_toNat _⟩
  case ret =>
    cases hdone (i := .ret) (by rw [hop]; rfl)
    exact pcOfByte_toNat _
  case jeqTaken =>
    cases hdone (i := .jeq (s.byteAt 1)) (by rw [hop]; rfl) with
    | jeqTaken _ ha => exact ⟨ha, pcOfByte_toNat _⟩
    | jeqNotTaken hE' => cases hE.symm.trans hE'
  case jeqNotTaken =>
    cases hdone (i := .jeq (s.byteAt 1)) (by rw [hop]; rfl) with
    | jeqTaken hE' => cases hE.symm.trans hE'
    | jeqNotTaken => exact hnext
  case jneTaken =>
    cases hdone (i := .jne (s.byteAt 1)) (by rw [hop]; rfl) with
    | jneTaken _ ha => exact ⟨ha, pcOfByte_toNat _⟩
    | jneNotTaken hE' => cases hE.symm.trans hE'
  case jneNotTaken =>
    cases hdone (i := .jne (s.byteAt 1)) (by rw [hop]; rfl) with
    | jneTaken hE' => cases hE.symm.trans hE'
    | jneNotTaken => exact hnext
  case unknown =>
    cases h.symm.trans (step_of_unknown hr hf hop)
    rw [reportInvalid_pc, opSetsPc, if_pos hbit]

end Sys2Proof.Machine
end
